-- ==== Sys2Proof/Word.lean ====
section
/-! DEFINITION. The widths of the machine: bytes, 16-bit words and the instruction fields
(00_scope.md R5, R6; 30_encoding.md R63). Nothing is signed (R5), so plain bit vectors are enough. -/

namespace Sys2Proof

/-- A byte: a memory cell, a general register, a timer, an immediate `kk` (R5). -/
abbrev Byte := BitVec 8

/-- A 16-bit value: `pc`, `I`, a call-stack slot, an instruction word (R13, R14, R15, R60). -/
abbrev Word := BitVec 16

/-- A 4-bit register number `x` or `y` (R63, R66). -/
abbrev Reg := BitVec 4

/-- A 4-bit sprite height `n` (R63, R66). -/
abbrev Nibble := BitVec 4

/-- A 12-bit address field `nnn` (R63, R66). -/
abbrev Addr12 := BitVec 12

end Sys2Proof
end

