-- ==== Sys2Proof/Config.lean ====
section
/-! DEFINITION. The parameters of 00_scope.md R4. The random source's table and seed are OPEN in the spec
(92_eei_decisions.md D11): they are opaque constants here, so nothing in Lean can know a value of them. The
others carry the spec's defaults. -/

namespace Sys2Proof.Config

/-! ### The random source (R4, R20, R157, D11) -/

/-- The first byte of `RNG_TABLE` (open). `RNG_TABLE` is "a non-empty list of bytes" (R4), so it is given as
a first byte and the rest. Log 3, safe. -/
opaque rngFirst : Byte

/-- The rest of `RNG_TABLE` (open). Log 3, safe. -/
opaque rngRest : List Byte

/-- `RNG_SEED` (open): a natural number. Log 3, safe. -/
opaque rngSeed : Nat

/-- `RNG_TABLE` (R4, R20). -/
def rngTable : List Byte := rngFirst :: rngRest

/-- `RNG_TABLE_SIZE = len(RNG_TABLE)`, at least 1 (R4). -/
def rngTableSize : Nat := rngTable.length

/-! ### The font (20_memory.md R42, D10) -/

/-- The three font parameters of R42. -/
structure Font where
  /-- `FONT_BASE`, the address of glyph 0. -/
  base : Nat
  /-- `GLYPH_STRIDE`, the bytes from one glyph to the next. -/
  stride : Nat
  /-- `FONT_DATA`, the glyph bytes in order, row 0 first. -/
  data : List Byte
deriving DecidableEq, Repr

/-- The glyphs 0 to 7 of R42's table. -/
def glyphs0to7 : List Byte :=
  [0xF0, 0x90, 0x90, 0x90, 0xF0,  0x20, 0x60, 0x20, 0x20, 0x70,
   0xF0, 0x10, 0xF0, 0x80, 0xF0,  0xF0, 0x10, 0xF0, 0x10, 0xF0,
   0x90, 0x90, 0xF0, 0x10, 0x10,  0xF0, 0x80, 0xF0, 0x10, 0xF0,
   0xF0, 0x80, 0xF0, 0x90, 0xF0,  0xF0, 0x10, 0x20, 0x40, 0x40]

/-- The glyphs 8 to F of R42's table. -/
def glyphs8toF : List Byte :=
  [0xF0, 0x90, 0xF0, 0x90, 0xF0,  0xF0, 0x90, 0xF0, 0x10, 0xF0,
   0xF0, 0x90, 0xF0, 0x90, 0x90,  0xE0, 0x90, 0xE0, 0x90, 0xE0,
   0xF0, 0x80, 0x80, 0x80, 0xF0,  0xE0, 0x90, 0x90, 0x90, 0xE0,
   0xF0, 0x80, 0xF0, 0x80, 0xF0,  0xF0, 0x80, 0xF0, 0x80, 0x80]

/-- The default font: base 0x000, stride 5, the table of R42 (D10, which the spec takes from general
knowledge). DESIGN CHOICE, log 5, unsafe for claims about a glyph's bytes. -/
def font : Font := { base := 0x000, stride := 5, data := glyphs0to7 ++ glyphs8toF }

/-! ### Policies (R4) -/

/-- `UNKNOWN_OPCODE_POLICY`: what a word that no row matches does (R67, R171, D3). -/
inductive UnknownOpcodePolicy where
  /-- Advance `pc` by 2 and set `decode_err` (the default, R67). -/
  | nop
  /-- Raise `BadOpcode`, code 6 (the alternative of R171). -/
  | fault
deriving DecidableEq, Repr

/-- The default policy of R4 and R67. DESIGN CHOICE of the spec (D3), log 8. -/
def unknownOpcodePolicy : UnknownOpcodePolicy := .nop

/-- What the near-miss words of R68 do. -/
inductive NearMissPolicy where
  /-- They are refused by name and given neither meaning (R68, U6). -/
  | refuse
  /-- They are unrecognised words like any others: R65's strict map and R67's list. The vectors of
  95_test_vectors.md T249 read them so. -/
  | followMap
deriving DecidableEq, Repr

/-- "A model should refuse programs that execute these words rather than give them either meaning" (R68; D15,
U6). DEDUCED that R68 goes before R67's list, log 9, safe. -/
def nearMissPolicy : NearMissPolicy := .refuse

end Sys2Proof.Config
end

