-- ==== Sys2Proof/Syntax.lean ====
section
/-! DEFINITION. The 34 instructions, one constructor per row of spec/opcode_table.json, in its order
(30_encoding.md R65). Operands are the fields R63 defines, at their own widths. -/

namespace Sys2Proof

/-- An instruction of the machine (R65). A field's type is its width, so every value is one the encoding
admits (R66). `shrVx` and `shlVx` carry the `y` field that their words have and their meanings ignore
(41_alu.md R108, R110; log 15). -/
inductive Instr where
  /-- `CLS` (00E0), R140. -/
  | cls
  /-- `RET` (00EE), R80. -/
  | ret
  /-- `JP nnn` (1nnn), R81. -/
  | jp (nnn : Addr12)
  /-- `CALL nnn` (2nnn), R82. -/
  | call (nnn : Addr12)
  /-- `SE Vx,kk` (3xkk), R83. -/
  | seVxKk (x : Reg) (kk : Byte)
  /-- `SNE Vx,kk` (4xkk), R84. -/
  | sneVxKk (x : Reg) (kk : Byte)
  /-- `SE Vx,Vy` (5xy0), R85. -/
  | seVxVy (x y : Reg)
  /-- `LD Vx,kk` (6xkk), R100. -/
  | ldVxKk (x : Reg) (kk : Byte)
  /-- `ADD Vx,kk` (7xkk), R101. -/
  | addVxKk (x : Reg) (kk : Byte)
  /-- `LD Vx,Vy` (8xy0), R102. -/
  | ldVxVy (x y : Reg)
  /-- `OR Vx,Vy` (8xy1), R103. -/
  | orVxVy (x y : Reg)
  /-- `AND Vx,Vy` (8xy2), R104. -/
  | andVxVy (x y : Reg)
  /-- `XOR Vx,Vy` (8xy3), R105. -/
  | xorVxVy (x y : Reg)
  /-- `ADD Vx,Vy` (8xy4), R106. -/
  | addVxVy (x y : Reg)
  /-- `SUB Vx,Vy` (8xy5), R107. -/
  | subVxVy (x y : Reg)
  /-- `SHR Vx` (8xy6), R108. -/
  | shrVx (x y : Reg)
  /-- `SUBN Vx,Vy` (8xy7), R109. -/
  | subnVxVy (x y : Reg)
  /-- `SHL Vx` (8xyE), R110. -/
  | shlVx (x y : Reg)
  /-- `SNE Vx,Vy` (9xy0), R86. -/
  | sneVxVy (x y : Reg)
  /-- `LD I,nnn` (Annn), R120. -/
  | ldINnn (nnn : Addr12)
  /-- `JP V0,nnn` (Bnnn), R87. -/
  | jpV0Nnn (nnn : Addr12)
  /-- `RND Vx,kk` (Cxkk), R156. -/
  | rndVxKk (x : Reg) (kk : Byte)
  /-- `DRW Vx,Vy,n` (Dxyn), R141. -/
  | drwVxVyN (x y : Reg) (n : Nibble)
  /-- `SKP Vx` (Ex9E), R150. -/
  | skpVx (x : Reg)
  /-- `SKNP Vx` (ExA1), R151. -/
  | sknpVx (x : Reg)
  /-- `LD Vx,DT` (Fx07), R152. -/
  | ldVxDt (x : Reg)
  /-- `LD Vx,K` (Fx0A), R153. -/
  | ldVxK (x : Reg)
  /-- `LD DT,Vx` (Fx15), R154. -/
  | ldDtVx (x : Reg)
  /-- `LD ST,Vx` (Fx18), R155. -/
  | ldStVx (x : Reg)
  /-- `ADD I,Vx` (Fx1E), R121. -/
  | addIVx (x : Reg)
  /-- `LD F,Vx` (Fx29), R122. -/
  | ldFVx (x : Reg)
  /-- `LD B,Vx` (Fx33), R123. -/
  | ldBVx (x : Reg)
  /-- `LD [I],Vx` (Fx55), R124. -/
  | ldMemVx (x : Reg)
  /-- `LD Vx,[I]` (Fx65), R125. -/
  | ldVxMem (x : Reg)
deriving DecidableEq, Repr

end Sys2Proof
end

