-- ==== Sys2Proof/WellFormed.lean ====
section
/-! DEFINITION. Well-formedness: what the spec requires of the data that reaches the machine. The fields of
an instruction carry their widths in their types, so an instruction has no field to check (30_encoding.md
R66: every value of every field is legal); the checks that say something are those on the program image
(20_memory.md R56) and on the font parameters (R42). -/

namespace Sys2Proof

/-- Every value of every field is an operand the spec allows (R66), and the field types admit no others, so
every instruction term is well formed. -/
def Instr.wellFormed (_ : Instr) : Bool := true

/-- `PROG_BASE`, where the loader places the program (R41, R56). -/
def progBase : Nat := 0x200

/-- `PROG_MAX`, the largest program image in bytes (R4, R41): `4096 - 0x200`. -/
def progMax : Nat := 3584

/-- The loader's precondition `len(PROGRAM) <= 3584` (R56, R188). -/
def programFits (program : List Byte) : Bool := decide (program.length ≤ progMax)

/-- The constraint of R42 on the font parameters: sixteen glyphs of `GLYPH_STRIDE` bytes each, inside the
reserved region below 0x200. -/
def Config.Font.wellFormed (f : Config.Font) : Bool :=
  decide (f.data.length = 16 * f.stride) && decide (f.base + 16 * f.stride ≤ 0x200)

end Sys2Proof
end

