-- ==== Sys2Proof/Decode.lean ====
section
/-! DEFINITION. Decoding and encoding (30_encoding.md R60 to R68). The decoder is R71's own: find the row of
R65's table with `op & mask = match` and read its fields. The bit patterns other than 6xkk are the spec's
from general knowledge (R65, D28; log 10). -/

namespace Sys2Proof

/-! ### Fields of a word (R63) -/

/-- `nnn`, bits 11:0 (R63). -/
def nnnOf (op : Word) : Addr12 := op.extractLsb' 0 12

/-- `x`, bits 11:8 (R63). -/
def xOf (op : Word) : Reg := op.extractLsb' 8 4

/-- `y`, bits 7:4 (R63). -/
def yOf (op : Word) : Reg := op.extractLsb' 4 4

/-- `kk`, bits 7:0 (R63). -/
def kkOf (op : Word) : Byte := op.extractLsb' 0 8

/-- `n`, bits 3:0 (R63). -/
def nOf (op : Word) : Nibble := op.extractLsb' 0 4

/-- `op[15:12]`, the primary dispatch key (R63). -/
def highNibbleOf (op : Word) : Nibble := op.extractLsb' 12 4

/-- A word from its two bytes in memory order: the byte at the lower address is bits 15:8 (R44, R60). -/
def wordOfBytes (hi lo : Byte) : Word := hi ++ lo

/-- The byte of a word that lies at the lower address (R44). -/
def highByte (op : Word) : Byte := op.extractLsb' 8 8

/-- The byte of a word that lies at the higher address (R44). -/
def lowByte (op : Word) : Byte := op.extractLsb' 0 8

/-! ### The opcode map (R65) -/

/-- A row of R65's table: a word selects it iff `op & mask = pattern`; `build` reads its fields. -/
structure OpcodeRow where
  /-- The row's `match` value. -/
  pattern : Word
  /-- The row's `mask`. -/
  mask : Word
  /-- The instruction the row stands for, from the word's fields. -/
  build : Word → Instr

/-- Does the word select the row (R65)? -/
def OpcodeRow.selects (r : OpcodeRow) (op : Word) : Bool := op &&& r.mask == r.pattern

/-- Rows 1 to 9 of R65: the families 0 to 7. -/
def opcodeRows0to7 : List OpcodeRow :=
  [ ⟨0x00E0, 0xFFFF, fun _ => .cls⟩,
    ⟨0x00EE, 0xFFFF, fun _ => .ret⟩,
    ⟨0x1000, 0xF000, fun op => .jp (nnnOf op)⟩,
    ⟨0x2000, 0xF000, fun op => .call (nnnOf op)⟩,
    ⟨0x3000, 0xF000, fun op => .seVxKk (xOf op) (kkOf op)⟩,
    ⟨0x4000, 0xF000, fun op => .sneVxKk (xOf op) (kkOf op)⟩,
    ⟨0x5000, 0xF00F, fun op => .seVxVy (xOf op) (yOf op)⟩,
    ⟨0x6000, 0xF000, fun op => .ldVxKk (xOf op) (kkOf op)⟩,
    ⟨0x7000, 0xF000, fun op => .addVxKk (xOf op) (kkOf op)⟩ ]

/-- Rows 10 to 18 of R65: family 8. -/
def opcodeRows8 : List OpcodeRow :=
  [ ⟨0x8000, 0xF00F, fun op => .ldVxVy (xOf op) (yOf op)⟩,
    ⟨0x8001, 0xF00F, fun op => .orVxVy (xOf op) (yOf op)⟩,
    ⟨0x8002, 0xF00F, fun op => .andVxVy (xOf op) (yOf op)⟩,
    ⟨0x8003, 0xF00F, fun op => .xorVxVy (xOf op) (yOf op)⟩,
    ⟨0x8004, 0xF00F, fun op => .addVxVy (xOf op) (yOf op)⟩,
    ⟨0x8005, 0xF00F, fun op => .subVxVy (xOf op) (yOf op)⟩,
    ⟨0x8006, 0xF00F, fun op => .shrVx (xOf op) (yOf op)⟩,
    ⟨0x8007, 0xF00F, fun op => .subnVxVy (xOf op) (yOf op)⟩,
    ⟨0x800E, 0xF00F, fun op => .shlVx (xOf op) (yOf op)⟩ ]

/-- Rows 19 to 25 of R65: the families 9 to E. -/
def opcodeRows9toE : List OpcodeRow :=
  [ ⟨0x9000, 0xF00F, fun op => .sneVxVy (xOf op) (yOf op)⟩,
    ⟨0xA000, 0xF000, fun op => .ldINnn (nnnOf op)⟩,
    ⟨0xB000, 0xF000, fun op => .jpV0Nnn (nnnOf op)⟩,
    ⟨0xC000, 0xF000, fun op => .rndVxKk (xOf op) (kkOf op)⟩,
    ⟨0xD000, 0xF000, fun op => .drwVxVyN (xOf op) (yOf op) (nOf op)⟩,
    ⟨0xE09E, 0xF0FF, fun op => .skpVx (xOf op)⟩,
    ⟨0xE0A1, 0xF0FF, fun op => .sknpVx (xOf op)⟩ ]

/-- Rows 26 to 34 of R65: family F. -/
def opcodeRowsF : List OpcodeRow :=
  [ ⟨0xF007, 0xF0FF, fun op => .ldVxDt (xOf op)⟩,
    ⟨0xF00A, 0xF0FF, fun op => .ldVxK (xOf op)⟩,
    ⟨0xF015, 0xF0FF, fun op => .ldDtVx (xOf op)⟩,
    ⟨0xF018, 0xF0FF, fun op => .ldStVx (xOf op)⟩,
    ⟨0xF01E, 0xF0FF, fun op => .addIVx (xOf op)⟩,
    ⟨0xF029, 0xF0FF, fun op => .ldFVx (xOf op)⟩,
    ⟨0xF033, 0xF0FF, fun op => .ldBVx (xOf op)⟩,
    ⟨0xF055, 0xF0FF, fun op => .ldMemVx (xOf op)⟩,
    ⟨0xF065, 0xF0FF, fun op => .ldVxMem (xOf op)⟩ ]

/-- The 34 rows of R65, in its order. -/
def opcodeRows : List OpcodeRow := opcodeRows0to7 ++ opcodeRows8 ++ opcodeRows9toE ++ opcodeRowsF

/-- R71: "find the row of R65 with (op & mask) = match"; no row, no instruction (R67). -/
def decodeWord (op : Word) : Option Instr := (opcodeRows.find? (·.selects op)).map (·.build op)

/-! ### Rejections by name (R67, R68) -/

/-- Why bytes are no instruction. -/
inductive DecodeError where
  /-- A word that no row matches and that R68 does not list (R67). -/
  | unrecognised (op : Word)
  /-- A word that no row matches and that R68 lists as a near miss. -/
  | nearMiss (op : Word)
  /-- Fewer bytes than the two of a word (R60). -/
  | truncated (length : Nat)
deriving DecidableEq, Repr

/-- The near-miss words of R68: `5xyN` and `9xyN` with `N != 0`, and `0nnn` with low byte 0xE0 or 0xEE and
`nnn[11:8] != 0`. -/
def isNearMiss (op : Word) : Bool :=
  ((highNibbleOf op == 0x5 || highNibbleOf op == 0x9) && nOf op != 0)
    || (highNibbleOf op == 0x0 && (kkOf op == 0xE0 || kkOf op == 0xEE) && xOf op != 0)

/-- The name under which a word that no row matches is rejected (R67, R68). -/
def rejection (op : Word) : DecodeError :=
  if isNearMiss op then .nearMiss op else .unrecognised op

/-- Decoding of a byte stream: the first two bytes, high byte first (R60, R44), and the bytes after them. -/
def decode : List Byte → Except DecodeError (Instr × List Byte)
  | hi :: lo :: rest =>
    match decodeWord (wordOfBytes hi lo) with
    | some i => .ok (i, rest)
    | none => .error (rejection (wordOfBytes hi lo))
  | bytes => .error (.truncated bytes.length)

/-- The instruction of a table row's word: bit 0 of `w` is the least significant bit of the word, `nbits`
of them are given and the rest are 0; the word is laid out high byte first (R44) and decoded. -/
def decodeTableWord (nbits w : Nat) : Option Instr :=
  let op : Word := BitVec.ofNat 16 (w % 2 ^ nbits)
  match decode [highByte op, lowByte op] with
  | .ok (i, _) => some i
  | .error _ => none

/-! ### The encoder (R64, R65) -/

/-- Format NNN (R64). -/
def formNNN (o : Nibble) (nnn : Addr12) : Word := o ++ nnn

/-- Format XKK (R64). -/
def formXKK (o : Nibble) (x : Reg) (kk : Byte) : Word := o ++ x ++ kk

/-- Formats XY and XYN (R64): the low nibble is the selector or the height. -/
def formXYN (o : Nibble) (x y : Reg) (n : Nibble) : Word := o ++ x ++ y ++ n

/-- The word of an instruction, by R64's formats and R65's patterns. -/
def encode : Instr → Word
  | .cls => 0x00E0
  | .ret => 0x00EE
  | .jp nnn => formNNN 0x1 nnn
  | .call nnn => formNNN 0x2 nnn
  | .seVxKk x kk => formXKK 0x3 x kk
  | .sneVxKk x kk => formXKK 0x4 x kk
  | .seVxVy x y => formXYN 0x5 x y 0x0
  | .ldVxKk x kk => formXKK 0x6 x kk
  | .addVxKk x kk => formXKK 0x7 x kk
  | .ldVxVy x y => formXYN 0x8 x y 0x0
  | .orVxVy x y => formXYN 0x8 x y 0x1
  | .andVxVy x y => formXYN 0x8 x y 0x2
  | .xorVxVy x y => formXYN 0x8 x y 0x3
  | .addVxVy x y => formXYN 0x8 x y 0x4
  | .subVxVy x y => formXYN 0x8 x y 0x5
  | .shrVx x y => formXYN 0x8 x y 0x6
  | .subnVxVy x y => formXYN 0x8 x y 0x7
  | .shlVx x y => formXYN 0x8 x y 0xE
  | .sneVxVy x y => formXYN 0x9 x y 0x0
  | .ldINnn nnn => formNNN 0xA nnn
  | .jpV0Nnn nnn => formNNN 0xB nnn
  | .rndVxKk x kk => formXKK 0xC x kk
  | .drwVxVyN x y n => formXYN 0xD x y n
  | .skpVx x => formXKK 0xE x 0x9E
  | .sknpVx x => formXKK 0xE x 0xA1
  | .ldVxDt x => formXKK 0xF x 0x07
  | .ldVxK x => formXKK 0xF x 0x0A
  | .ldDtVx x => formXKK 0xF x 0x15
  | .ldStVx x => formXKK 0xF x 0x18
  | .addIVx x => formXKK 0xF x 0x1E
  | .ldFVx x => formXKK 0xF x 0x29
  | .ldBVx x => formXKK 0xF x 0x33
  | .ldMemVx x => formXKK 0xF x 0x55
  | .ldVxMem x => formXKK 0xF x 0x65

end Sys2Proof
end

