-- ==== Sys2Proof/Machine/State.lean ====
section
/-! DEFINITION. The state of the machine: everything 10_state.md R11 to R24 names, and the schedule of host
actions still to come (the model's own field, log 2), as plain data. Its value at reset (R27). -/

namespace Sys2Proof.Machine

/-- Memory: the listed bytes, by rising address; an address that is not listed reads as its reset content
(`unlistedByte` in Machine/Ops.lean; 20_memory.md R40, R42, R27; log 21). -/
abbrev Memory := List Host.Cell

/-- The frame buffer: 32 rows of 64 pixels, row 0 at the top, column 0 at the left, `true` is on (R18). -/
abbrev FrameBuffer := Vector (Vector Bool 64) 32

/-- The interpreter status (R22). -/
inductive Status where
  /-- The last step completed an instruction, or none has run yet. -/
  | running
  /-- The instruction at `pc` is `LD Vx,K` and the last step found no key pressed. -/
  | awaitingKey
  /-- A fault was raised; terminal (R175). -/
  | faulted
deriving DecidableEq, Repr

/-- The fault kinds (60_exceptions.md R170, R171). -/
inductive FaultKind where
  /-- Code 1: `pc > 0xFFE` at the start of a step. -/
  | fetchBounds
  /-- Code 2: the highest data address of the instruction is above 0xFFF. -/
  | memBounds
  /-- Code 3: `CALL` with `sp = 16`. -/
  | stackOverflow
  /-- Code 4: `RET` with `sp = 0`. -/
  | stackUnderflow
  /-- Code 5: `SKP` or `SKNP` with `V[x] > 15`. -/
  | keyIndex
  /-- Code 6: an unrecognised word under `UNKNOWN_OPCODE_POLICY = fault` only (R171). -/
  | badOpcode
deriving DecidableEq, Repr

/-- The fault record: `fault_kind` and `fault_info` (R23), the latter an untruncated natural number. -/
structure FaultRecord where
  /-- `fault_kind`. -/
  kind : FaultKind
  /-- `fault_info`: the offending address, stack pointer, key index or word (R170, R171). -/
  info : Nat
deriving DecidableEq, Repr

/-- The actions of the host loop at a step boundary: the input ports of 10_state.md R26. -/
inductive HostAction where
  /-- `step`: one `ExecuteOneInstruction()` of the Interpreter Core (R71). -/
  | step
  /-- `tick`: one `TickTimers()` (R177). -/
  | tick
  /-- `key[15:0]`: input capture sets the sixteen key levels (R17, R179). -/
  | keys (levels : Vector Bool 16)
  /-- `present_ack`: the presenter has presented the surface (R181). -/
  | present
  /-- `reset`, with what the ports `seed` and `load` carry then (R26, R200). -/
  | reset (seed : Nat) (program : List Byte)
deriving DecidableEq, Repr

/-- The machine's state (10_state.md). -/
structure State where
  /-- `V[0] .. V[15]`, the general registers; `V[15]` is `vF` (R11, R12). -/
  v : Vector Byte 16
  /-- `I`, the index register (R13). -/
  index : Word
  /-- `pc`, the program counter (R14). -/
  pc : Word
  /-- `sp`, the number of return addresses held, 0..16 (R15, D26). -/
  sp : Fin 17
  /-- `stack[1] .. stack[16]`; slot `k` stands at position `k - 1` (R15, D2). -/
  stack : Vector Word 16
  /-- `DT`, the delay timer (R16). -/
  dt : Byte
  /-- `ST`, the sound timer (R16). -/
  st : Byte
  /-- `mem`, the 4096 bytes of memory (R21). -/
  mem : Memory
  /-- `key[0] .. key[15]`, the key levels (R17). -/
  key : Vector Bool 16
  /-- `fb`, the frame buffer (R18). -/
  fb : FrameBuffer
  /-- `draw_pending` (R19). -/
  drawPending : Bool
  /-- `rng_index`, the generator's state (R20). -/
  rngIndex : Nat
  /-- `status` (R22). -/
  status : Status
  /-- `fault_kind` and `fault_info`; `none` is "no fault recorded" (R23). -/
  fault : Option FaultRecord
  /-- `decode_err`, sticky (R24). -/
  decodeErr : Bool
  /-- The model's own field: the host actions still to happen, the next first. The spec calls the schedule
  an input of the run (R25); empty, the core steps (log 2). -/
  schedule : List HostAction
deriving DecidableEq, Repr

/-- Why the machine stops without a next state. A fault of 60_exceptions.md is none of these: its effect on
the state is the spec's own, so it is a next state (log 1). -/
inductive Fault where
  /-- Raised by the reset action alone, when the image it carries has more than 3584 bytes: the loader "must
  fail loudly" (20_memory.md R56, 60_exceptions.md R188; log 20). Safe: nothing runs. -/
  | programTooLarge (length : Nat)
deriving DecidableEq, Repr

/-- Why a word has no meaning. -/
inductive Refusal where
  /-- Raised by `exec`'s arm of an instruction that has no meaning yet; no arm does. Safe. -/
  | notModelled (mnemonic : String)
  /-- Raised by a step of the core whose word 30_encoding.md R68 lists as a near miss: a model "should refuse"
  it "rather than give" it "either meaning" (log 9). No instruction raises it. Safe: nothing is said of the
  run. -/
  | nearMissWord (op : Word)
deriving DecidableEq, Repr

/-- What a step or a meaning answers. -/
abbrev Result := Host.Outcome State Fault Refusal

/-- The state after reset (R27), with an empty program image and `RNG_SEED` as the seed. The rows that R27
marks "source" are the source's; `I`, `fb`, `draw_pending`, `key`, `status`, and memory outside the font are
D12's (DESIGN CHOICE, log 6); the stack slots, which R27 leaves unspecified, hold 0 (DESIGN CHOICE, log 7);
the schedule is the model's own and empty (DESIGN CHOICE, log 2). Memory lists nothing: the font and the
zeros are what unlisted addresses read as. -/
def State.reset : State where
  v := Vector.replicate 16 0
  index := 0
  pc := 0x200
  sp := 0
  stack := Vector.replicate 16 0
  dt := 0
  st := 0
  mem := []
  key := Vector.replicate 16 false
  fb := Vector.replicate 32 (Vector.replicate 64 false)
  drawPending := false
  rngIndex := Config.rngSeed % Config.rngTableSize
  status := .running
  fault := none
  decodeErr := false
  schedule := []

end Sys2Proof.Machine
end

