-- ==== Sys2Proof/Machine/Ops.lean ====
section
/-! DEFINITION. The named operations over memory, registers, program counter and stack, and raising a fault
(00_scope.md R8; 60_exceptions.md R174), which every meaning is written over. -/

namespace Sys2Proof.Machine

/-! ### Memory (20_memory.md) -/

/-- The byte a font puts at an address: its data from its base on, 0 elsewhere (R42, R27). -/
def fontByte (f : Config.Font) (a : Nat) : Byte :=
  if f.base ≤ a then f.data.getD (a - f.base) 0 else 0

/-- What an address that memory does not list reads as: its reset content, `FONT_DATA` in the font's range
and 0x00 elsewhere (R27, R41, R42; D10, D12; log 21). -/
def unlistedByte (a : Nat) : Byte := fontByte Config.font a

/-- The byte at address `a` (R43's `mem[a]`): every caller has checked the range before it reads. -/
def Memory.read : Memory → Nat → Byte
  | [], a => unlistedByte a
  | (b, v) :: m, a => if a = b then v else Memory.read m a

/-- Puts a cell before the first listed cell of a higher address. -/
def Memory.place : Memory → Host.Cell → Memory
  | [], c => [c]
  | d :: m, c => if c.1 < d.1 then c :: d :: m else d :: Memory.place m c

/-- Stores byte `v` at address `a` (R43's `mem[a] <- v`), keeping the list in its one canonical form: a byte
equal to what an unlisted address reads as is not listed. -/
def Memory.write (m : Memory) (a : Nat) (v : Byte) : Memory :=
  let rest := m.filter (fun c => c.1 != a)
  if v = unlistedByte a then rest else Memory.place rest (a, v)

/-- The canonical form: addresses strictly rising, inside 0x000..0xFFF (R40), and no byte listed that an
unlisted address would read as. -/
abbrev Memory.wf (m : Memory) : Prop :=
  m.Pairwise (fun c d => c.1 < d.1) ∧ ∀ c ∈ m, c.1 ≤ 0xFFF ∧ c.2 ≠ unlistedByte c.1

/-- The `n` bytes from address `a` up (R46: one byte an access, ascending, R126). -/
def Memory.readBytes (m : Memory) (a n : Nat) : List Byte :=
  (List.range n).map (fun k => m.read (a + k))

/-- Stores bytes at ascending addresses from `a` up (R46, R126). -/
def Memory.writeBytes : Memory → Nat → List Byte → Memory
  | m, _, [] => m
  | m, a, b :: bs => Memory.writeBytes (m.write a b) (a + 1) bs

/-- The instruction word at `pc`: two bytes, the one at the lower address in bits 15:8 (R44, R61). -/
def fetchWord (s : State) : Word :=
  wordOfBytes (s.mem.read s.pc.toNat) (s.mem.read (s.pc.toNat + 1))

/-! ### General registers (10_state.md R11) -/

/-- `V[r]`. -/
def State.reg (s : State) (r : Reg) : Byte := s.v[r.toNat]'r.isLt

/-- `V[r] <- b`. -/
def State.setReg (s : State) (r : Reg) (b : Byte) : State := { s with v := s.v.set r.toNat b r.isLt }

/-- The number of the flag register `vF` (R12). -/
def vF : Reg := 0xF

/-- `V[k] <- bs[k]` for every `k` the list has (R125: `V[0]`, `V[1]` and so on). -/
def State.setRegs (s : State) (bs : List Byte) : State :=
  { s with v := Vector.ofFn (fun k : Fin 16 => bs.getD k.val s.v[k]) }

/-- `V[0] .. V[x]`, in order (R124). -/
def State.regsUpTo (s : State) (x : Reg) : List Byte := s.v.toList.take (x.toNat + 1)

/-! ### Program counter (10_state.md R14, 30_encoding.md R62) -/

/-- `npc`, the advanced value `trunc_16(a + 2)` (R62). -/
def State.npc (s : State) : Word := s.pc + 2

/-- `pc <- npc` (R62). -/
def State.advance (s : State) : State := { s with pc := s.npc }

/-- `pc <- t` (40_control.md R88: no target is checked or aligned). -/
def State.jump (s : State) (t : Word) : State := { s with pc := t }

/-- `pc <- trunc_16(npc + 2)` if the condition holds, else `pc <- npc` (R83). -/
def State.skipIf (s : State) (c : Bool) : State := { s with pc := if c then s.npc + 2 else s.npc }

/-! ### Raising a fault (R8, R174) -/

/-- `raise K(info)`: `status`, `fault_kind` and `fault_info` are written and everything else keeps its value,
`pc` included (R174). -/
def raise (k : FaultKind) (info : Nat) (s : State) : State :=
  { s with status := .faulted, fault := some ⟨k, info⟩ }

/-- The codes of the fault kinds (R170, R171). -/
def FaultKind.code : FaultKind → Nat
  | .fetchBounds => 1
  | .memBounds => 2
  | .stackOverflow => 3
  | .stackUnderflow => 4
  | .keyIndex => 5
  | .badOpcode => 6

/-- The bounds policy of R43: the highest address of the transfer is checked before anything is done. -/
def withinMemory (aMax : Nat) (s done : State) : State :=
  if aMax > 0xFFF then raise .memBounds aMax s else done

/-! ### Call stack (10_state.md R15; 40_control.md R80, R82) -/

/-- `stack[k]` for `1 <= k <= 16`, slot `k` at position `k - 1` (R15, D2). -/
def State.stackSlot (s : State) (k : Nat) : Word := s.stack.getD (k - 1) 0

/-- `sp <- sp + 1; stack[sp] <- w; pc <- t`, or `StackOverflow(16)` when `sp = 16` (R82). -/
def push (w t : Word) (s : State) : State :=
  if h : s.sp.val < 16 then
    { s with sp := ⟨s.sp.val + 1, by omega⟩, stack := s.stack.set s.sp.val w h, pc := t }
  else raise .stackOverflow s.sp.val s

/-- `pc <- stack[sp]; sp <- sp - 1`, or `StackUnderflow(0)` when `sp = 0` (R80). -/
def pop (s : State) : State :=
  if s.sp.val = 0 then raise .stackUnderflow 0 s
  else { s with pc := s.stackSlot s.sp.val, sp := ⟨s.sp.val - 1, by omega⟩ }

/-! ### Words that no row matches (30_encoding.md R67, R68; 60_exceptions.md R171) -/

/-- What a word that no row matches does: a near-miss word of R68 is refused by name, if the model is set to
refuse them (it is, log 9); any other has R67's effect, `decode_err` set and `pc` advanced and nothing else, or,
under the alternative policy of R171, raises `BadOpcode(op)`. -/
def unrecognised (p : Config.UnknownOpcodePolicy) (q : Config.NearMissPolicy) (op : Word) (s : State) : Result :=
  match q, isNearMiss op, p with
  | .refuse, true, _ => .refused (.nearMissWord op)
  | _, _, .nop => .next { s with decodeErr := true, pc := s.npc }
  | _, _, .fault => .next (raise .badOpcode op.toNat s)

end Sys2Proof.Machine
end

