-- ==== Sys2Proof/Machine/Operands.lean ====
section
/-! DEFINITION. Operand forms: how an instruction's fields become values and addresses (30_encoding.md R66;
42_index_memory.md R126; 44_keys_timers_random.md R150, R153). -/

namespace Sys2Proof.Machine

/-- `zext_16(nnn)` (R66). -/
def zextAddr (nnn : Addr12) : Word := nnn.setWidth 16

/-- `zext_16(b)` of a byte (R66). -/
def zextByte (b : Byte) : Word := b.setWidth 16

/-- The effective address of the `k`-th byte of a transfer, the unbounded integer `I + k` (R126). -/
def State.dataAddr (s : State) (k : Nat) : Nat := s.index.toNat + k

/-- The three decimal digits of a byte: hundreds, tens, units (R123). -/
def bcdDigits (a : Byte) : List Byte :=
  [BitVec.ofNat 8 (a.toNat / 100), BitVec.ofNat 8 (a.toNat / 10 % 10), BitVec.ofNat 8 (a.toNat % 10)]

/-- The address of a font character, `trunc_16(FONT_BASE + GLYPH_STRIDE * v)`, the whole byte used (R122). -/
def glyphAddr (f : Config.Font) (v : Byte) : Word := BitVec.ofNat 16 (f.base + f.stride * v.toNat)

/-- `key[k]` for `k <= 15` (R17). -/
def State.keyDown (s : State) (k : Nat) : Bool := s.key.getD k false

/-- The bounds check of a key index: `KeyIndex(k)` when `k > 15` (R150, R151, D9). -/
def withKeyIndex (k : Nat) (s done : State) : State :=
  if k > 15 then raise .keyIndex k s else done

/-- `KEY_PICK`: the lowest pressed key, if any is pressed (R153, D8; log 12). -/
def keyPick (key : Vector Bool 16) : Option Nat := (List.range 16).find? (fun k => key.getD k false)

end Sys2Proof.Machine
end

