-- ==== Sys2Proof/Machine/Flags.lean ====
section
/-! DEFINITION. The flag computations of the ALU (41_alu.md R106 to R112) and the order in which flag and
result are written (R111). -/

namespace Sys2Proof.Machine

/-- A flag as the byte written to `vF`: 1 or 0 (R12). -/
def flagByte (c : Bool) : Byte := if c then 1 else 0

/-- The carry of `ADD`: 1 iff the sum is greater than 255 (R106, R112). -/
def carryFlag (a b : Byte) : Byte := flagByte (decide (a.toNat + b.toNat > 255))

/-- The flag of a subtraction `a - b`: 1 iff `a > b`, strictly (R107, R109, R112; 90_conflicts.md C1). -/
def greaterFlag (a b : Byte) : Byte := flagByte (decide (a.toNat > b.toNat))

/-- The bit a right shift drops, `A[0]` (R108). -/
def lowBitFlag (a : Byte) : Byte := flagByte (a.getLsbD 0)

/-- The bit a left shift drops, `A[7]` (R110). -/
def highBitFlag (a : Byte) : Byte := flagByte (a.getLsbD 7)

/-- R111: the flag goes to `vF` first and the result to `V[x]` last, so with `x = 0xF` the result remains;
then `pc <- npc`. -/
def State.writeFlagged (s : State) (x : Reg) (flag result : Byte) : State :=
  ((s.setReg vF flag).setReg x result).advance

end Sys2Proof.Machine
end

