-- ==== Sys2Proof/Machine/Alu.lean ====
section
/-! DEFINITION. Register loads and the 8-bit ALU (41_alu.md R100 to R112). Operands are read from the state
before any write (R111, D4; log 11). -/

namespace Sys2Proof.Machine

/-- `LD Vx,kk` (R100). -/
def execLdVxKk (x : Reg) (kk : Byte) (s : State) : Result := .next (s.setReg x kk).advance

/-- `ADD Vx,kk` (R101): modulo 256, no flag. -/
def execAddVxKk (x : Reg) (kk : Byte) (s : State) : Result := .next (s.setReg x (s.reg x + kk)).advance

/-- `LD Vx,Vy` (R102): no flag (D5). -/
def execLdVxVy (x y : Reg) (s : State) : Result := .next (s.setReg x (s.reg y)).advance

/-- `OR Vx,Vy` (R103): no flag (D5). -/
def execOrVxVy (x y : Reg) (s : State) : Result := .next (s.setReg x (s.reg x ||| s.reg y)).advance

/-- `AND Vx,Vy` (R104): no flag (D5). -/
def execAndVxVy (x y : Reg) (s : State) : Result := .next (s.setReg x (s.reg x &&& s.reg y)).advance

/-- `XOR Vx,Vy` (R105): no flag (D5). -/
def execXorVxVy (x y : Reg) (s : State) : Result := .next (s.setReg x (s.reg x ^^^ s.reg y)).advance

/-- `ADD Vx,Vy` (R106). -/
def execAddVxVy (x y : Reg) (s : State) : Result :=
  .next (s.writeFlagged x (carryFlag (s.reg x) (s.reg y)) (s.reg x + s.reg y))

/-- `SUB Vx,Vy` (R107): `V[x] - V[y]`, flag iff `V[x] > V[y]`. -/
def execSubVxVy (x y : Reg) (s : State) : Result :=
  .next (s.writeFlagged x (greaterFlag (s.reg x) (s.reg y)) (s.reg x - s.reg y))

/-- `SHR Vx` (R108): one position, of `V[x]`; the `y` field is ignored. -/
def execShrVx (x _y : Reg) (s : State) : Result :=
  .next (s.writeFlagged x (lowBitFlag (s.reg x)) (s.reg x >>> 1))

/-- `SUBN Vx,Vy` (R109): `V[y] - V[x]` into `V[x]`, flag iff `V[y] > V[x]`. -/
def execSubnVxVy (x y : Reg) (s : State) : Result :=
  .next (s.writeFlagged x (greaterFlag (s.reg y) (s.reg x)) (s.reg y - s.reg x))

/-- `SHL Vx` (R110): one position, of `V[x]`; the `y` field is ignored. -/
def execShlVx (x _y : Reg) (s : State) : Result :=
  .next (s.writeFlagged x (highBitFlag (s.reg x)) (s.reg x <<< 1))

end Sys2Proof.Machine
end

