-- ==== Sys2Proof/Machine/Control.lean ====
section
/-! DEFINITION. Control transfer (40_control.md R80 to R88). `s.pc` is the address `a` of the instruction;
`s.npc` is the advanced value `a + 2`. -/

namespace Sys2Proof.Machine

/-- `RET` (R80). -/
def execRet (s : State) : Result := .next (pop s)

/-- `JP nnn` (R81). -/
def execJp (nnn : Addr12) (s : State) : Result := .next (s.jump (zextAddr nnn))

/-- `CALL nnn` (R82): the value pushed is `npc`. -/
def execCall (nnn : Addr12) (s : State) : Result := .next (push s.npc (zextAddr nnn) s)

/-- `SE Vx,kk` (R83). -/
def execSeVxKk (x : Reg) (kk : Byte) (s : State) : Result := .next (s.skipIf (s.reg x == kk))

/-- `SNE Vx,kk` (R84). -/
def execSneVxKk (x : Reg) (kk : Byte) (s : State) : Result := .next (s.skipIf (s.reg x != kk))

/-- `SE Vx,Vy` (R85). -/
def execSeVxVy (x y : Reg) (s : State) : Result := .next (s.skipIf (s.reg x == s.reg y))

/-- `SNE Vx,Vy` (R86). -/
def execSneVxVy (x y : Reg) (s : State) : Result := .next (s.skipIf (s.reg x != s.reg y))

/-- `JP V0,nnn` (R87): the sum is not reduced to 12 bits (D14). -/
def execJpV0Nnn (nnn : Addr12) (s : State) : Result := .next (s.jump (zextAddr nnn + zextByte (s.reg 0)))

end Sys2Proof.Machine
end

