-- ==== Sys2Proof/Machine/Display.lean ====
section
/-! DEFINITION. The display (43_display.md R140 to R144): clear screen and the sprite XOR-blit engine with
wrap-around on both axes and collision detection. -/

namespace Sys2Proof.Machine

/-- The pixel at row `r mod 32`, column `c mod 64` (R141, R142 item 2). -/
def pixel (f : FrameBuffer) (r c : Nat) : Bool :=
  (f[r % 32]'(Nat.mod_lt r (by decide)))[c % 64]'(Nat.mod_lt c (by decide))

/-- `fb[r][c] <- fb[r][c] ^ 1` at row `r mod 32`, column `c mod 64` (R141). -/
def flipPixel (f : FrameBuffer) (r c : Nat) : FrameBuffer :=
  let row := f[r % 32]'(Nat.mod_lt r (by decide))
  f.set (r % 32) (row.set (c % 64) (!pixel f r c) (Nat.mod_lt c (by decide))) (Nat.mod_lt r (by decide))

/-- The frame buffer and the collision so far, while a sprite is drawn (R141's `fb` and `coll`). -/
structure Canvas where
  /-- `fb`. -/
  fb : FrameBuffer
  /-- `coll`. -/
  coll : Bool
deriving DecidableEq, Repr

/-- One set bit of the sprite (R141): a pixel that was on collides; the pixel flips. -/
def drawPixel (k : Canvas) (r c : Nat) : Canvas :=
  { fb := flipPixel k.fb r c, coll := k.coll || pixel k.fb r c }

/-- Bit `b` of a sprite row, `bitIndex` 0 the leftmost pixel: `row[7 - b]` (R141, R142 item 1). -/
def spriteBit (row : Byte) (b : Nat) : Bool := row.getLsbD (7 - b)

/-- One sprite row at screen row `r`, its leftmost pixel at column `X` (R141's inner loop). -/
def drawRow (k : Canvas) (X r : Nat) (row : Byte) : Canvas :=
  (List.range 8).foldl (fun k b => if spriteBit row b then drawPixel k r (X + b) else k) k

/-- The sprite's rows, one screen row each, downward from `Y` (R141's outer loop). -/
def drawSprite (k : Canvas) (X : Nat) : Nat → List Byte → Canvas
  | _, [] => k
  | Y, row :: rows => drawSprite (drawRow k X Y row) X (Y + 1) rows

/-- `CLS` (R140): every pixel off; `draw_pending` and `vF` unchanged (D18). -/
def execCls (s : State) : Result :=
  .next { s with fb := Vector.replicate 32 (Vector.replicate 64 false) }.advance

/-- The effect of `DRW` once its addresses are in range (R141): the rows are read, the sprite is drawn at
the latched coordinates, `vF` takes the collision and `draw_pending` is set. -/
def drawn (x y : Reg) (n : Nibble) (s : State) : State :=
  let k := drawSprite { fb := s.fb, coll := false } (s.reg x).toNat (s.reg y).toNat
    (s.mem.readBytes (s.dataAddr 0) n.toNat)
  { s with fb := k.fb, drawPending := true }.setReg vF (flagByte k.coll) |>.advance

/-- `DRW Vx,Vy,n` (R141): with `n = 0` no byte is read, so nothing is checked. -/
def execDrwVxVyN (x y : Reg) (n : Nibble) (s : State) : Result :=
  .next (if n.toNat = 0 then drawn x y n s
    else withinMemory (s.dataAddr (n.toNat - 1)) s (drawn x y n s))

end Sys2Proof.Machine
end

