-- ==== Sys2Proof/Machine/IndexMemory.lean ====
section
/-! DEFINITION. Index register and memory transfers (42_index_memory.md R120 to R126). `I` is read by the
transfers and never changed by them (R126, D21); a transfer checks its highest address first (R43). -/

namespace Sys2Proof.Machine

/-- `LD I,nnn` (R120). -/
def execLdINnn (nnn : Addr12) (s : State) : Result := .next { s with index := zextAddr nnn }.advance

/-- `ADD I,Vx` (R121): modulo 2^16, not reduced to 12 bits, no flag (D13). -/
def execAddIVx (x : Reg) (s : State) : Result := .next { s with index := s.index + zextByte (s.reg x) }.advance

/-- `LD F,Vx` (R122). -/
def execLdFVx (x : Reg) (s : State) : Result := .next { s with index := glyphAddr Config.font (s.reg x) }.advance

/-- `LD B,Vx` (R123): hundreds, tens, units at `I`, `I + 1`, `I + 2`. -/
def execLdBVx (x : Reg) (s : State) : Result :=
  .next (withinMemory (s.dataAddr 2) s
    { s with mem := s.mem.writeBytes (s.dataAddr 0) (bcdDigits (s.reg x)) }.advance)

/-- `LD [I],Vx` (R124): `V[0] .. V[x]` at `I .. I + x`. -/
def execLdMemVx (x : Reg) (s : State) : Result :=
  .next (withinMemory (s.dataAddr x.toNat) s
    { s with mem := s.mem.writeBytes (s.dataAddr 0) (s.regsUpTo x) }.advance)

/-- `LD Vx,[I]` (R125): `mem[I] .. mem[I + x]` into `V[0] .. V[x]`. -/
def execLdVxMem (x : Reg) (s : State) : Result :=
  .next (withinMemory (s.dataAddr x.toNat) s
    (s.setRegs (s.mem.readBytes (s.dataAddr 0) (x.toNat + 1))).advance)

end Sys2Proof.Machine
end

