-- ==== Sys2Proof/Machine/Keys.lean ====
section
/-! DEFINITION. Key skips and the wait for a key (44_keys_timers_random.md R150, R151, R153). -/

namespace Sys2Proof.Machine

/-- `SKP Vx` (R150). -/
def execSkpVx (x : Reg) (s : State) : Result :=
  .next (withKeyIndex (s.reg x).toNat s (s.skipIf (s.keyDown (s.reg x).toNat)))

/-- `SKNP Vx` (R151). -/
def execSknpVx (x : Reg) (s : State) : Result :=
  .next (withKeyIndex (s.reg x).toNat s (s.skipIf (!s.keyDown (s.reg x).toNat)))

/-- `LD Vx,K` (R153): a pressed key completes it at once; with none, only `status` changes and `pc` stays
at the instruction (D7). -/
def execLdVxK (x : Reg) (s : State) : Result :=
  match keyPick s.key with
  | some k => .next { s.setReg x (BitVec.ofNat 8 k) with status := .running }.advance
  | none => .next { s with status := .awaitingKey }

end Sys2Proof.Machine
end

