-- ==== Sys2Proof/Machine/Random.lean ====
section
/-! DEFINITION. The pseudo-random source (44_keys_timers_random.md R156, R157): a walk through the open table
`RNG_TABLE`. -/

namespace Sys2Proof.Machine

/-- `RandomNext()` over a table (R157): the byte at the index, and the index advanced modulo the table's
size. The index is below the size in every state a run reaches (R20, R28); the reduction of the index read
only gives states no run reaches a next state too (log 4). -/
def randomNext (table : List Byte) (i : Nat) : Byte × Nat :=
  (table.getD (i % table.length) 0, (i + 1) % table.length)

/-- `RND Vx,kk` over a table (R156): exactly one call of the generator, whatever `kk` is. -/
def rndWith (table : List Byte) (x : Reg) (kk : Byte) (s : State) : State :=
  ({ s with rngIndex := (randomNext table s.rngIndex).2 }.setReg x
    ((randomNext table s.rngIndex).1 &&& kk)).advance

/-- `RND Vx,kk` (R156), over the machine's table. -/
def execRndVxKk (x : Reg) (kk : Byte) (s : State) : Result := .next (rndWith Config.rngTable x kk s)

end Sys2Proof.Machine
end

