-- ==== Sys2Proof/Machine/Timers.lean ====
section
/-! DEFINITION. Timer access (44_keys_timers_random.md R152, R154, R155). -/

namespace Sys2Proof.Machine

/-- `LD Vx,DT` (R152). -/
def execLdVxDt (x : Reg) (s : State) : Result := .next (s.setReg x s.dt).advance

/-- `LD DT,Vx` (R154). -/
def execLdDtVx (x : Reg) (s : State) : Result := .next { s with dt := s.reg x }.advance

/-- `LD ST,Vx` (R155). -/
def execLdStVx (x : Reg) (s : State) : Result := .next { s with st := s.reg x }.advance

end Sys2Proof.Machine
end

