-- ==== Sys2Proof/Machine/Agents.lean ====
section
/-! DEFINITION. The steps of the agents of 10_state.md R10: the Interpreter Core's `ExecuteOneInstruction`
(30_encoding.md R71), Timer Ticking (60_exceptions.md R177), input capture (R179), the presenter (R181) and,
at reset, the loader (70_reset_and_hazards.md R200). Each is atomic (R10, D25). -/

namespace Sys2Proof.Machine

/-- `ExecuteOneInstruction()` (R71): nothing when faulted (R175); `FetchBounds(pc)` when `pc > 0xFFE` (R61);
else the word at `pc` is fetched and decoded, and its row's rule runs, or the word is unrecognised (R67), the
near-miss words of R68 refused. -/
def executeOneInstruction (s : State) : Result :=
  if s.status = .faulted then .next s
  else if s.pc.toNat > 0xFFE then .next (raise .fetchBounds s.pc.toNat s)
  else match decodeWord (fetchWord s) with
    | some i => exec i s
    | none => unrecognised Config.unknownOpcodePolicy Config.nearMissPolicy (fetchWord s) s

/-- One timer's decrement, never below zero (R177). -/
def tickDown (t : Byte) : Byte := if t.toNat > 0 then t - 1 else t

/-- `TickTimers()` (R177): both timers, in every status (D17). -/
def tickTimers (s : State) : State := { s with dt := tickDown s.dt, st := tickDown s.st }

/-- Input capture writes the key levels, and nothing else (R10, R17, R179). -/
def setKeys (levels : Vector Bool 16) (s : State) : State := { s with key := levels }

/-- The presenter clears `draw_pending`, and nothing else (R10, R181). -/
def presented (s : State) : State := { s with drawPending := false }

/-- The machine created anew (R200): R27's values, the generator seeded, the program placed at 0x200 (R56).
The schedule still to come and nothing else outlives it. -/
def boot (seed : Nat) (program : List Byte) (s : State) : State :=
  { State.reset with
    mem := Memory.writeBytes [] progBase program
    rngIndex := seed % Config.rngTableSize
    schedule := s.schedule }

/-- Reset with the loader's check: an image over 3584 bytes is refused loudly and nothing runs (R56, R188;
log 20). -/
def resetWith (seed : Nat) (program : List Byte) (s : State) : Result :=
  if programFits program then .next (boot seed program s) else .fault (.programTooLarge program.length)

/-- The action the host loop chose, performed by its agent (R10, R26). -/
def act (e : HostAction) (s : State) : Result :=
  match e with
  | .step => executeOneInstruction s
  | .tick => .next (tickTimers s)
  | .keys levels => .next (setKeys levels s)
  | .present => .next (presented s)
  | .reset seed program => resetWith seed program s

/-- One step of the whole machine: the next action of the schedule happens; with none left the host loop
invokes the core (log 2). -/
def stepMachine (s : State) : Result :=
  match s.schedule with
  | [] => executeOneInstruction s
  | e :: rest => act e { s with schedule := rest }

/-- Stores an instruction word at `pc`, high byte first (R44, R60), with nothing scheduled before the core's
step: what the loader does for a program, for one word (R56; log 19). -/
def placeWord (op : Word) (s : State) : State :=
  { s with mem := s.mem.writeBytes s.pc.toNat [highByte op, lowByte op], schedule := [] }

end Sys2Proof.Machine
end

