-- ==== Sys2Proof/Machine/Step.lean ====
section
/-! DEFINITION. One step of the machine, and the placing of an instruction where that step fetches. -/

namespace Sys2Proof.Machine

/-- One step (10_state.md R10, 30_encoding.md R71; log 2). -/
def step (s : State) : Host.Outcome State Fault Refusal := stepMachine s

/-- `s` with the instruction word whose bits are `w`, in the opcode table's numbering, at `pc` (log 19). -/
def State.withFetchWord (s : State) (nbits w : Nat) : State :=
  placeWord (BitVec.ofNat 16 (w % 2 ^ nbits)) s

end Sys2Proof.Machine
end

