-- ==== Sys2Proof/Safety.lean ====
section
/-! DEFINITION. What claims are stated in: a run with no fault recorded, the finished state, the invariant of
10_state.md R28, what an instruction writes, the pixels a sprite covers and the table of faults. -/

namespace Sys2Proof.Machine

/-- No fault is recorded: "a premise of every claim about a completed run" (60_exceptions.md R175). -/
def State.noFault (s : State) : Prop := s.status ≠ .faulted ∧ s.fault = none

/-- A program has finished: Running, and the word at `pc` is `JP pc` (70_reset_and_hazards.md R204, D20). -/
def State.finished (s : State) : Prop :=
  s.status = .running ∧ s.pc.toNat ≤ 0xFFE ∧ fetchWord s = (0x1000 : Word) ||| s.pc

/-- Every live call-stack slot holds a return address: 2 more than a fetched address, so 2..0x1000 (R28). -/
def State.stackSound (s : State) : Prop :=
  ∀ k, 1 ≤ k → k ≤ s.sp.val → 2 ≤ (s.stackSlot k).toNat ∧ (s.stackSlot k).toNat ≤ 0x1000

/-- A fault is recorded exactly when the status is Faulted, and its datum is below 2^17 (R22, R23, R174). -/
def State.faultSound (s : State) : Prop :=
  (s.status = .faulted ↔ s.fault.isSome = true) ∧ ∀ f, s.fault = some f → f.info < 2 ^ 17

/-- While AwaitingKey, the instruction at `pc` is `LD Vx,K` (R22, R71). -/
def State.waitSound (s : State) : Prop :=
  s.status = .awaitingKey → s.pc.toNat ≤ 0xFFE ∧ ∃ x, decodeWord (fetchWord s) = some (.ldVxK x)

/-- What holds in every reachable state (R28, R20, R22, R23), memory's canonical form among it. -/
def State.Inv (s : State) : Prop :=
  s.mem.wf ∧ s.rngIndex < Config.rngTableSize ∧ s.stackSound ∧ s.faultSound ∧ s.waitSound

/-! ### What an instruction writes -/

/-- Every byte of memory reads as before. -/
def SameBytes (s t : State) : Prop := ∀ a, t.mem.read a = s.mem.read a

/-- Every byte of memory outside the `n` bytes from `a` up reads as before. -/
def SameBytesOutside (s t : State) (a n : Nat) : Prop :=
  ∀ b, b < a ∨ a + n ≤ b → t.mem.read b = s.mem.read b

/-- Register `x` takes the value `b` (a number), `pc` advances by 2, and nothing else changes: no other
register, no other field of the state, no byte of memory. -/
def WritesReg (s t : State) (x : Reg) (b : Nat) : Prop :=
  (t.reg x).toNat = b ∧ (∀ r, r ≠ x → t.reg r = s.reg r) ∧ t.pc = s.pc + 2 ∧
    t = { s with v := t.v, pc := t.pc } ∧ SameBytes s t

/-- Register `x` takes the value `b`, `vF` takes the flag `f` unless it is the destination itself (41_alu.md
R111), `pc` advances by 2, and nothing else changes. -/
def WritesRegAndFlag (s t : State) (x : Reg) (b f : Nat) : Prop :=
  (t.reg x).toNat = b ∧ (x ≠ 15 → (t.reg 15).toNat = f) ∧ (∀ r, r ≠ x → r ≠ 15 → t.reg r = s.reg r) ∧
    t.pc = s.pc + 2 ∧ t = { s with v := t.v, pc := t.pc } ∧ SameBytes s t

/-- `pc` takes a value and nothing else changes. -/
def WritesPc (s t : State) (target : Word) : Prop :=
  t.pc = target ∧ t = { s with pc := t.pc } ∧ SameBytes s t

/-- `I` takes a value (a number), `pc` advances by 2, and nothing else changes. -/
def WritesIndex (s t : State) (a : Nat) : Prop :=
  t.index.toNat = a ∧ t.pc = s.pc + 2 ∧ t = { s with index := t.index, pc := t.pc } ∧ SameBytes s t

/-- The state in which the fault `k` with datum `info` is recorded and everything else is as it was
(60_exceptions.md R174). -/
def faultedWith (k : FaultKind) (info : Nat) (s : State) : State :=
  { s with status := .faulted, fault := some { kind := k, info := info } }

/-- May an instruction write `V[r]` (10_state.md R12 and the instruction rules)? Its destination, the range of
a register load, or `vF` for the six that write it as a side effect. -/
def mayWriteReg (i : Instr) (r : Reg) : Bool :=
  match i with
  | .ldVxKk x _ | .addVxKk x _ | .ldVxVy x _ | .orVxVy x _ | .andVxVy x _ | .xorVxVy x _ => r == x
  | .rndVxKk x _ | .ldVxDt x | .ldVxK x => r == x
  | .addVxVy x _ | .subVxVy x _ | .shrVx x _ | .subnVxVy x _ | .shlVx x _ => r == x || r == 15
  | .drwVxVyN _ _ _ => r == 15
  | .ldVxMem x => decide (r.toNat ≤ x.toNat)
  | .cls | .ret | .jp _ | .call _ | .seVxKk _ _ | .sneVxKk _ _ | .seVxVy _ _ | .sneVxVy _ _ => false
  | .ldINnn _ | .jpV0Nnn _ | .skpVx _ | .sknpVx _ | .ldDtVx _ | .ldStVx _ | .addIVx _ | .ldFVx _ => false
  | .ldBVx _ | .ldMemVx _ => false

/-- The instructions that do not simply end with `pc <- npc` (10_state.md R14): the control transfers and the
skips. -/
def transfersControl : Instr → Bool
  | .ret | .jp _ | .call _ | .jpV0Nnn _ | .seVxKk _ _ | .sneVxKk _ _ | .seVxVy _ _ | .sneVxVy _ _ => true
  | .skpVx _ | .sknpVx _ => true
  | .cls | .ldVxKk _ _ | .addVxKk _ _ | .ldVxVy _ _ | .orVxVy _ _ | .andVxVy _ _ | .xorVxVy _ _ => false
  | .addVxVy _ _ | .subVxVy _ _ | .shrVx _ _ | .subnVxVy _ _ | .shlVx _ _ | .ldINnn _ | .rndVxKk _ _ => false
  | .drwVxVyN _ _ _ | .ldVxDt _ | .ldVxK _ | .ldDtVx _ | .ldStVx _ | .addIVx _ | .ldFVx _ | .ldBVx _ => false
  | .ldMemVx _ | .ldVxMem _ => false

/-! ### The pixels a sprite covers (43_display.md R141) -/

/-- A set bit `b` (0 the leftmost) of sprite row `j` lands on row `r`, column `c`. -/
def SpriteCovers (s : State) (x y : Reg) (n : Nibble) (r c : Nat) : Prop :=
  ∃ j < n.toNat, ∃ b < 8, (s.mem.read (s.dataAddr 0 + j)).getLsbD (7 - b) = true ∧
    r = ((s.reg y).toNat + j) % 32 ∧ c = ((s.reg x).toNat + b) % 64

/-- The bytes a draw reads lie in memory; with `n = 0` it reads none (R141). -/
def SpriteInMemory (s : State) (n : Nibble) : Prop := n.toNat = 0 ∨ s.dataAddr (n.toNat - 1) ≤ 0xFFF

/-! ### The table of faults (60_exceptions.md R170) -/

/-- The fault that R170's table gives an instruction in a state, if any (the fetch check comes before it). -/
def tabledFault (i : Instr) (s : State) : Option FaultRecord :=
  match i with
  | .drwVxVyN _ _ n =>
    if 1 ≤ n.toNat ∧ s.index.toNat + n.toNat - 1 > 0xFFF then
      some { kind := .memBounds, info := s.index.toNat + n.toNat - 1 } else none
  | .ldBVx _ =>
    if s.index.toNat + 2 > 0xFFF then some { kind := .memBounds, info := s.index.toNat + 2 } else none
  | .ldMemVx x | .ldVxMem x =>
    if s.index.toNat + x.toNat > 0xFFF then some { kind := .memBounds, info := s.index.toNat + x.toNat } else none
  | .call _ => if s.sp.val = 16 then some { kind := .stackOverflow, info := 16 } else none
  | .ret => if s.sp.val = 0 then some { kind := .stackUnderflow, info := 0 } else none
  | .skpVx x | .sknpVx x =>
    if (s.reg x).toNat > 15 then some { kind := .keyIndex, info := (s.reg x).toNat } else none
  | .cls | .jp _ | .seVxKk _ _ | .sneVxKk _ _ | .seVxVy _ _ | .sneVxVy _ _ | .jpV0Nnn _ => none
  | .ldVxKk _ _ | .addVxKk _ _ | .ldVxVy _ _ | .orVxVy _ _ | .andVxVy _ _ | .xorVxVy _ _ => none
  | .addVxVy _ _ | .subVxVy _ _ | .shrVx _ _ | .subnVxVy _ _ | .shlVx _ _ | .ldINnn _ | .rndVxKk _ _ => none
  | .ldVxDt _ | .ldVxK _ | .ldDtVx _ | .ldStVx _ | .addIVx _ | .ldFVx _ => none

/-! ### The unrecognised words (30_encoding.md R67) -/

/-- The table of R67, family by family. -/
def Unrecognised (op : Word) : Prop :=
  (highNibbleOf op = 0x0 ∧ nnnOf op ≠ 0x0E0 ∧ nnnOf op ≠ 0x0EE) ∨
  (highNibbleOf op = 0x5 ∧ nOf op ≠ 0) ∨
  (highNibbleOf op = 0x8 ∧ nOf op ∈ ([0x8, 0x9, 0xA, 0xB, 0xC, 0xD, 0xF] : List Nibble)) ∨
  (highNibbleOf op = 0x9 ∧ nOf op ≠ 0) ∨
  (highNibbleOf op = 0xE ∧ kkOf op ≠ 0x9E ∧ kkOf op ≠ 0xA1) ∨
  (highNibbleOf op = 0xF ∧
    kkOf op ∉ ([0x07, 0x0A, 0x15, 0x18, 0x1E, 0x29, 0x33, 0x55, 0x65] : List Byte))

end Sys2Proof.Machine
end

