-- ==== Sys2Proof/Certificates/Slice0/Obligations.lean ====
section
/-! DEFINITION. The statements for the provers, in the order of the spec's files. Each docstring names the rule or
the section it rests on; where a value is the spec's own decision or the model's choice it names that too. -/

open Sys2Proof Sys2Proof.Machine

/-! ### Encoding and decoding (30_encoding.md) -/

/-- Decoding the word the encoder builds gives the instruction back, every field at every value, also from
the two bytes in memory order (R60, R63 to R66; bit patterns by D28, log 10; `y` of the shifts kept, log 15). -/
def Obligations.DecodeOfEncodeIsTheInstruction : Prop :=
  ∀ (i : Instr) (rest : List Byte), decodeWord (encode i) = some i ∧
    decode (highByte (encode i) :: lowByte (encode i) :: rest) = .ok (i, rest)

/-- A word that decodes is the encoding of what it decodes to: each recognised word has one meaning (R65). -/
def Obligations.EncodeOfDecodeIsTheWord : Prop :=
  ∀ (op : Word) (i : Instr), decodeWord op = some i → encode i = op

/-- "No two rows match the same word" (R65, derived there). -/
def Obligations.NoTwoRowsSelectOneWord : Prop :=
  ∀ (op : Word) (m n : Fin opcodeRows.length),
    opcodeRows[m].selects op = true → opcodeRows[n].selects op = true → m = n

/-- The words that no row matches are exactly R67's six families, and the near-miss words of R68 are among
them (D15, D28). -/
def Obligations.WordsWithoutARowAreTheUnrecognisedFamilies : Prop :=
  (∀ op : Word, decodeWord op = none ↔ Unrecognised op) ∧
  (∀ op : Word, isNearMiss op = true → Unrecognised op)

/-- Words written out by hand from R65's patterns, one or more for each high nibble, decode to what they stand
for; the two of the source's own example among them. -/
def Obligations.HandWrittenWordsDecode : Prop :=
  decodeWord 0x00E0 = some .cls ∧ decodeWord 0x00EE = some .ret ∧
  decodeWord 0x1ABC = some (.jp 0xABC) ∧ decodeWord 0x2300 = some (.call 0x300) ∧
  decodeWord 0x3A02 = some (.seVxKk 0xA 0x02) ∧ decodeWord 0x4A02 = some (.sneVxKk 0xA 0x02) ∧
  decodeWord 0x5120 = some (.seVxVy 0x1 0x2) ∧ decodeWord 0x6A02 = some (.ldVxKk 0xA 0x02) ∧
  decodeWord 0x6005 = some (.ldVxKk 0x0 0x05) ∧ decodeWord 0x71FF = some (.addVxKk 0x1 0xFF) ∧
  decodeWord 0x8AB7 = some (.subnVxVy 0xA 0xB) ∧ decodeWord 0x8ABE = some (.shlVx 0xA 0xB) ∧
  decodeWord 0x9120 = some (.sneVxVy 0x1 0x2) ∧ decodeWord 0xA300 = some (.ldINnn 0x300) ∧
  decodeWord 0xB2FF = some (.jpV0Nnn 0x2FF) ∧ decodeWord 0xC10F = some (.rndVxKk 0x1 0x0F) ∧
  decodeWord 0xD015 = some (.drwVxVyN 0x0 0x1 0x5) ∧ decodeWord 0xE1A1 = some (.sknpVx 0x1) ∧
  decodeWord 0xFA65 = some (.ldVxMem 0xA) ∧ decodeWord 0xF30A = some (.ldVxK 0x3)

/-- The five fields of a word and its high nibble are the bits R63 names, and they overlap as it says. -/
def Obligations.FieldsAreTheBitsOfTheWord : Prop :=
  ∀ op : Word,
    (nnnOf op).toNat = op.toNat % 4096 ∧ (nOf op).toNat = op.toNat % 16 ∧
    (xOf op).toNat = op.toNat / 256 % 16 ∧ (yOf op).toNat = op.toNat / 16 % 16 ∧
    (kkOf op).toNat = op.toNat % 256 ∧ (highNibbleOf op).toNat = op.toNat / 4096 ∧
    nnnOf op = xOf op ++ yOf op ++ nOf op ∧ nnnOf op = xOf op ++ kkOf op ∧ kkOf op = yOf op ++ nOf op

/-- The fetched word has the byte at the lower address in bits 15:8 (20_memory.md section 5; R61), for any
`pc`, odd or even. -/
def Obligations.FetchReadsHighByteFirst : Prop :=
  ∀ s : State, (fetchWord s).toNat =
    (s.mem.read s.pc.toNat).toNat * 256 + (s.mem.read (s.pc.toNat + 1)).toNat

/-! ### The step (30_encoding.md section 7) and the agents (10_state.md section 1) -/

/-- A step runs the decoded instruction: not faulted and with a fetchable `pc`, the step is `exec` of the
instruction at `pc`, the schedule empty or its next action the core's (R71; the schedule is the model's own
field, log 2). Nothing is moved around `exec`: it sees `pc` at the instruction. -/
def Obligations.StepRunsTheDecodedInstruction : Prop :=
  ∀ (s : State) (i : Instr), s.status ≠ .faulted → s.pc.toNat ≤ 0xFFE → decodeWord (fetchWord s) = some i →
    (s.schedule = [] → step s = exec i s) ∧
    (∀ rest, s.schedule = .step :: rest → step s = exec i { s with schedule := rest })

/-- A step with `pc > 0xFFE` raises `FetchBounds(pc)` and changes nothing else, `pc` included (R61 with D1,
D19). -/
def Obligations.FetchOutsideMemoryFaults : Prop :=
  ∀ s : State, s.schedule = [] → s.status ≠ .faulted → s.pc.toNat > 0xFFE →
    step s = .next (faultedWith .fetchBounds s.pc.toNat s)

/-- An unrecognised word only advances `pc` by 2 and sets `decode_err` (R67 with D3), but for the near-miss
words: a step refuses them by name and gives them neither meaning (R68 with D15, U6; log 9). -/
def Obligations.UnrecognisedWordIsANoOpButANearMissIsRefused : Prop :=
  ∀ s : State, s.schedule = [] → s.status ≠ .faulted → s.pc.toNat ≤ 0xFFE → Unrecognised (fetchWord s) →
    (isNearMiss (fetchWord s) = false → step s = .next { s with pc := s.pc + 2, decodeErr := true }) ∧
    (isNearMiss (fetchWord s) = true → step s = .refused (.nearMissWord (fetchWord s)))

/-- What each policy does to a word that has no row: the strict map alone makes every such word `BadOpcode(op)`
with `pc` kept under R171's policy, or R67's no-op; refusing the near-miss words, under either, leaves every
other word its `BadOpcode(op)` or its no-op (log 8, log 9). -/
def Obligations.PoliciesForUnknownWords : Prop :=
  ∀ (op : Word) (s : State),
    unrecognised .fault .followMap op s = .next (faultedWith .badOpcode op.toNat s) ∧
    unrecognised .nop .followMap op s = .next { s with pc := s.pc + 2, decodeErr := true } ∧
    (isNearMiss op = true → ∀ p, unrecognised p .refuse op s = .refused (.nearMissWord op)) ∧
    (isNearMiss op = false →
      unrecognised .fault .refuse op s = .next (faultedWith .badOpcode op.toNat s) ∧
      unrecognised .nop .refuse op s = .next { s with pc := s.pc + 2, decodeErr := true })

/-- `Faulted` is terminal: whatever action comes next, unless it is a reset, the status and the record stay
and only the host's and the timer agent's own state can change; the core's step changes nothing (R175, D17,
D19). -/
def Obligations.FaultedIsTerminal : Prop :=
  ∀ s : State, s.status = .faulted →
    (s.schedule = [] → step s = .next s) ∧
    (∀ e rest, s.schedule = e :: rest → (∀ seed program, e ≠ .reset seed program) →
      ∃ t, step s = .next t ∧ t.status = .faulted ∧ t.fault = s.fault ∧ t.schedule = rest ∧
        t = { s with dt := t.dt, st := t.st, key := t.key, drawPending := t.drawPending, schedule := rest })

/-- The reset state (R27). `V`, `pc`, `sp`, `DT`, `ST` and the seeded index are the source's; the font's
bytes are D10's (log 5); `I`, the other memory, `key`, `fb`, `draw_pending` and `status` are D12's (log 6);
the stack slots and the schedule are the model's own choice (log 7, log 2). -/
def Obligations.ResetHoldsTheListedValues : Prop :=
  (∀ r, State.reset.reg r = 0) ∧ State.reset.pc = 0x200 ∧ State.reset.sp.val = 0 ∧
  State.reset.dt = 0 ∧ State.reset.st = 0 ∧
  State.reset.rngIndex = Config.rngSeed % Config.rngTableSize ∧
  (∀ k, k < 80 → State.reset.mem.read (Config.font.base + k) = Config.font.data.getD k 0) ∧
  (∀ a, 80 ≤ a → State.reset.mem.read a = 0) ∧
  State.reset.index = 0 ∧ (∀ k < 16, State.reset.keyDown k = false) ∧
  (∀ r c, r < 32 → c < 64 → pixel State.reset.fb r c = false) ∧
  State.reset.drawPending = false ∧ State.reset.status = .running ∧ State.reset.fault = none ∧
  State.reset.decodeErr = false ∧ (∀ k, 1 ≤ k → k ≤ 16 → State.reset.stackSlot k = 0) ∧
  State.reset.schedule = []

/-- A reset action whose image fits leaves R27's values, the image at 0x200, every other byte at its reset
content and the generator seeded; it works from any state, a faulted one too (R56, R200). The schedule is the
model's own field (log 2). -/
def Obligations.ResetActionLoadsTheProgram : Prop :=
  ∀ (s : State) (seed : Nat) (program : List Byte) (rest : List HostAction),
    s.schedule = .reset seed program :: rest → program.length ≤ 3584 →
    ∃ t, step s = .next t ∧
      (∀ k (h : k < program.length), t.mem.read (0x200 + k) = program[k]) ∧
      (∀ a, a < 0x200 ∨ 0x200 + program.length ≤ a → t.mem.read a = State.reset.mem.read a) ∧
      t.mem.wf ∧ t.rngIndex = seed % Config.rngTableSize ∧
      t = { State.reset with mem := t.mem, rngIndex := t.rngIndex, schedule := rest }

/-- An image over 3584 bytes is refused loudly and nothing runs (R56, R188; how the model says so: log 20). -/
def Obligations.OversizedProgramIsRefused : Prop :=
  ∀ (s : State) (seed : Nat) (program : List Byte) (rest : List HostAction),
    s.schedule = .reset seed program :: rest → program.length > 3584 →
    step s = .fault (.programTooLarge program.length)

/-- A tick decrements each timer that is above 0, in every status, and changes nothing else (R177, D17; the
schedule that brings it is the model's own field, log 2). -/
def Obligations.TickDecrementsBothTimers : Prop :=
  ∀ (s : State) (rest : List HostAction), s.schedule = .tick :: rest →
    ∃ t, step s = .next t ∧ t.dt.toNat = s.dt.toNat - 1 ∧ t.st.toNat = s.st.toNat - 1 ∧ t.schedule = rest ∧
      t = { s with dt := t.dt, st := t.st, schedule := t.schedule } ∧ SameBytes s t

/-- A timer set to `v` is 0 after exactly `v` ticks and stays there: after `n` ticks it holds `v - n`, never
below 0 (60_exceptions.md section 7, R178). -/
def Obligations.TimerCountsDownToZeroAndStays : Prop :=
  ∀ (s : State) (n : Nat), (tickTimers^[n] s).dt.toNat = s.dt.toNat - n ∧ (tickTimers^[n] s).st.toNat = s.st.toNat - n

/-- Input capture writes the key levels alone, the presenter clears `draw_pending` alone (10_state.md section
1, R10; R179, R181, D25; the schedule is the model's own field, log 2). -/
def Obligations.HostActionsWriteOnlyTheirOwnState : Prop :=
  ∀ (s : State) (rest : List HostAction),
    (∀ levels, s.schedule = .keys levels :: rest → step s = .next { s with key := levels, schedule := rest }) ∧
    (s.schedule = .present :: rest → step s = .next { s with drawPending := false, schedule := rest })

/-! ### Control transfer (40_control.md) -/

/-- `RET` with a return address held takes it into `pc` and frees its slot; nothing else changes (R80). -/
def Obligations.RetTakesTheTopSlot : Prop :=
  ∀ s : State, 1 ≤ s.sp.val →
    ∃ t, exec .ret s = .next t ∧ t.pc = s.stackSlot s.sp.val ∧ t.sp.val = s.sp.val - 1 ∧
      t = { s with pc := t.pc, sp := t.sp } ∧ SameBytes s t

/-- `CALL nnn` with a free slot pushes the address of the following instruction into slot `sp + 1` and goes to
`nnn`; the slots below and everything else are as before (R82). -/
def Obligations.CallPushesTheFollowingAddress : Prop :=
  ∀ (nnn : Addr12) (s : State), s.sp.val < 16 →
    ∃ t, exec (.call nnn) s = .next t ∧ t.pc.toNat = nnn.toNat ∧ t.sp.val = s.sp.val + 1 ∧
      t.stackSlot (s.sp.val + 1) = s.pc + 2 ∧
      (∀ k, 1 ≤ k → k ≤ 16 → k ≠ s.sp.val + 1 → t.stackSlot k = s.stackSlot k) ∧
      t = { s with pc := t.pc, sp := t.sp, stack := t.stack } ∧ SameBytes s t

/-- `CALL` with sixteen addresses held raises `StackOverflow(16)`, `RET` with none raises
`StackUnderflow(0)`; nothing else changes (R80, R82 with D2, D19). -/
def Obligations.FullOrEmptyStackFaults : Prop :=
  ∀ s : State,
    (s.sp.val = 16 → ∀ nnn, exec (.call nnn) s = .next (faultedWith .stackOverflow 16 s)) ∧
    (s.sp.val = 0 → exec .ret s = .next (faultedWith .stackUnderflow 0 s))

/-- The stack round trip: a `CALL` immediately followed by a `RET` restores `pc` to the address after the call
and leaves `sp` and every live slot as before (40_control.md R82's property; T234). -/
def Obligations.CallThenRetComesBack : Prop :=
  ∀ (nnn : Addr12) (s : State), s.sp.val < 16 →
    ∃ t u, exec (.call nnn) s = .next t ∧ exec .ret t = .next u ∧ u.pc = s.pc + 2 ∧ u.sp = s.sp ∧
      (∀ k, 1 ≤ k → k ≤ s.sp.val → u.stackSlot k = s.stackSlot k) ∧
      u = { s with pc := u.pc, stack := u.stack } ∧ SameBytes s u

/-- `JP nnn` goes to `nnn`; `JP V0,nnn` to the sum, which is not reduced to 12 bits and never wraps; nothing
else changes (R81, R87 with D14). -/
def Obligations.JumpsGoToTheirTarget : Prop :=
  ∀ (nnn : Addr12) (s : State),
    (∃ t, exec (.jp nnn) s = .next t ∧ t.pc.toNat = nnn.toNat ∧ WritesPc s t t.pc) ∧
    (∃ t, exec (.jpV0Nnn nnn) s = .next t ∧ t.pc.toNat = nnn.toNat + (s.reg 0).toNat ∧ WritesPc s t t.pc)

/-- The four compare-skips: `pc` goes 4 on if the condition holds and 2 on if not; nothing else changes (R83
to R86). -/
def Obligations.CompareSkipsGoTwoOrFour : Prop :=
  ∀ (x y : Reg) (kk : Byte) (s : State),
    (∃ t, exec (.seVxKk x kk) s = .next t ∧ WritesPc s t (if s.reg x = kk then s.pc + 4 else s.pc + 2)) ∧
    (∃ t, exec (.sneVxKk x kk) s = .next t ∧ WritesPc s t (if s.reg x = kk then s.pc + 2 else s.pc + 4)) ∧
    (∃ t, exec (.seVxVy x y) s = .next t ∧ WritesPc s t (if s.reg x = s.reg y then s.pc + 4 else s.pc + 2)) ∧
    (∃ t, exec (.sneVxVy x y) s = .next t ∧ WritesPc s t (if s.reg x = s.reg y then s.pc + 2 else s.pc + 4))

/-! ### Register loads and the ALU (41_alu.md) -/

/-- `LD Vx,kk` (R100): the pattern `6xkk`, the register written, `vF` changed only as the destination, `pc`
advanced, nothing else; the rule's example. -/
def Obligations.LoadImmediate : Prop :=
  (∀ op : Word, op &&& 0xF000 = 0x6000 → decodeWord op = some (.ldVxKk (xOf op) (kkOf op))) ∧
  (∀ (x : Reg) (kk : Byte) (s : State),
    ∃ t, exec (.ldVxKk x kk) s = .next t ∧ WritesReg s t x kk.toNat) ∧
  (∀ s : State, ∃ i t, decodeWord 0x6A02 = some i ∧ exec i s = .next t ∧ t.reg 10 = 2)

/-- `ADD Vx,kk`: the sum modulo 256; `vF` is not written unless it is the destination (R101). -/
def Obligations.AddImmediateWrapsWithoutFlag : Prop :=
  ∀ (x : Reg) (kk : Byte) (s : State),
    ∃ t, exec (.addVxKk x kk) s = .next t ∧ WritesReg s t x (((s.reg x).toNat + kk.toNat) % 256)

/-- Assign, OR, AND and XOR write their bitwise result to `V[x]` alone; `vF` is not written as a flag (R102 to
R105 with D5). The bits are those of the operands as they stood, `x = y` and `vF` included. -/
def Obligations.AssignAndLogicWriteNoFlag : Prop :=
  ∀ (x y : Reg) (s : State),
    (∃ t, exec (.ldVxVy x y) s = .next t ∧ WritesReg s t x (s.reg y).toNat) ∧
    (∃ t, exec (.orVxVy x y) s = .next t ∧ WritesReg s t x (t.reg x).toNat ∧
      ∀ b < 8, (t.reg x).getLsbD b = ((s.reg x).getLsbD b || (s.reg y).getLsbD b)) ∧
    (∃ t, exec (.andVxVy x y) s = .next t ∧ WritesReg s t x (t.reg x).toNat ∧
      ∀ b < 8, (t.reg x).getLsbD b = ((s.reg x).getLsbD b && (s.reg y).getLsbD b)) ∧
    (∃ t, exec (.xorVxVy x y) s = .next t ∧ WritesReg s t x (t.reg x).toNat ∧
      ∀ b < 8, (t.reg x).getLsbD b = ((s.reg x).getLsbD b ^^ (s.reg y).getLsbD b))

/-- `ADD Vx,Vy`: the sum modulo 256 into `V[x]`, last; `vF` is 1 iff the sum exceeds 255, unless `vF` is the
destination (R106, R111 with D4, log 11). -/
def Obligations.AddRegistersSetsCarry : Prop :=
  ∀ (x y : Reg) (s : State),
    ∃ t, exec (.addVxVy x y) s = .next t ∧
      WritesRegAndFlag s t x (((s.reg x).toNat + (s.reg y).toNat) % 256)
        (if (s.reg x).toNat + (s.reg y).toNat > 255 then 1 else 0)

/-- `SUB` and `SUBN`: the difference modulo 256 into `V[x]`, last; `vF` is 1 iff the minuend is strictly
greater, so 0 for equal operands, unless `vF` is the destination (R107, R109, R111 with D4; directions by G5,
the equal case by C1; log 11, log 17). -/
def Obligations.SubtractionsSetStrictFlag : Prop :=
  ∀ (x y : Reg) (s : State),
    (∃ t, exec (.subVxVy x y) s = .next t ∧
      WritesRegAndFlag s t x (((s.reg x).toNat + 256 - (s.reg y).toNat) % 256)
        (if (s.reg x).toNat > (s.reg y).toNat then 1 else 0)) ∧
    (∃ t, exec (.subnVxVy x y) s = .next t ∧
      WritesRegAndFlag s t x (((s.reg y).toNat + 256 - (s.reg x).toNat) % 256)
        (if (s.reg y).toNat > (s.reg x).toNat then 1 else 0))

/-- `SHR` and `SHL`: `V[x]` halved or doubled modulo 256, by one position, whatever `y` is; `vF` is the bit
shifted out, unless `vF` is the destination (R108, R110, R111 with D4, D6; log 11, log 17). -/
def Obligations.ShiftsMoveTheBitOut : Prop :=
  ∀ (x y : Reg) (s : State),
    (∃ t, exec (.shrVx x y) s = .next t ∧ WritesRegAndFlag s t x ((s.reg x).toNat / 2) ((s.reg x).toNat % 2)) ∧
    (∃ t, exec (.shlVx x y) s = .next t ∧
      WritesRegAndFlag s t x ((s.reg x).toNat * 2 % 256) ((s.reg x).toNat / 128))

/-! ### Index register and memory transfers (42_index_memory.md) -/

/-- `LD I,nnn` writes `nnn`; `ADD I,Vx` adds modulo 2^16 with no flag and no reduction to 12 bits; `LD F,Vx`
writes the glyph's address from the whole byte (R120, R121 with D13, R122 with D10, log 5). -/
def Obligations.IndexWrites : Prop :=
  ∀ (x : Reg) (nnn : Addr12) (s : State),
    (∃ t, exec (.ldINnn nnn) s = .next t ∧ WritesIndex s t nnn.toNat) ∧
    (∃ t, exec (.addIVx x) s = .next t ∧ WritesIndex s t ((s.index.toNat + (s.reg x).toNat) % 65536)) ∧
    (∃ t, exec (.ldFVx x) s = .next t ∧
      WritesIndex s t (Config.font.base + Config.font.stride * (s.reg x).toNat))

/-- `LD B,Vx` in range stores hundreds, tens and units at the three bytes from `I` up; every other byte and
everything else but `pc` is as before (R123; `I` kept by D21; the range is D1's). -/
def Obligations.BcdStoreWritesThreeDigits : Prop :=
  ∀ (x : Reg) (s : State), s.dataAddr 2 ≤ 0xFFF →
    ∃ t, exec (.ldBVx x) s = .next t ∧
      (t.mem.read (s.dataAddr 0)).toNat = (s.reg x).toNat / 100 ∧
      (t.mem.read (s.dataAddr 1)).toNat = (s.reg x).toNat / 10 % 10 ∧
      (t.mem.read (s.dataAddr 2)).toNat = (s.reg x).toNat % 10 ∧
      SameBytesOutside s t (s.dataAddr 0) 3 ∧ t.pc = s.pc + 2 ∧ t = { s with mem := t.mem, pc := t.pc }

/-- `LD [I],Vx` in range stores `V[0]` to `V[x]` at the `x + 1` bytes from `I` up; every other byte and
everything else but `pc` is as before (R124; `I` kept by D21; the range is D1's). -/
def Obligations.RegisterDumpStoresTheRange : Prop :=
  ∀ (x : Reg) (s : State), s.dataAddr x.toNat ≤ 0xFFF →
    ∃ t, exec (.ldMemVx x) s = .next t ∧
      (∀ r : Reg, r.toNat ≤ x.toNat → t.mem.read (s.dataAddr r.toNat) = s.reg r) ∧
      SameBytesOutside s t (s.dataAddr 0) (x.toNat + 1) ∧ t.pc = s.pc + 2 ∧ t = { s with mem := t.mem, pc := t.pc }

/-- `LD Vx,[I]` in range loads `V[0]` to `V[x]` from the `x + 1` bytes from `I` up; the registers above,
memory and everything else but `pc` are as before (R125; `I` kept by D21; the range is D1's). -/
def Obligations.RegisterLoadReadsTheRange : Prop :=
  ∀ (x : Reg) (s : State), s.dataAddr x.toNat ≤ 0xFFF →
    ∃ t, exec (.ldVxMem x) s = .next t ∧
      (∀ r : Reg, t.reg r = if r.toNat ≤ x.toNat then s.mem.read (s.dataAddr r.toNat) else s.reg r) ∧
      t.pc = s.pc + 2 ∧ t = { s with v := t.v, pc := t.pc } ∧ SameBytes s t

/-- A transfer whose highest address is above 0xFFF raises `MemBounds` of that address and does nothing else,
not even in part (R43, R46, R170 with D1, D19). -/
def Obligations.TransferOutsideMemoryFaults : Prop :=
  ∀ (x y : Reg) (n : Nibble) (s : State),
    (s.index.toNat + 2 > 0xFFF → exec (.ldBVx x) s = .next (faultedWith .memBounds (s.index.toNat + 2) s)) ∧
    (s.index.toNat + x.toNat > 0xFFF →
      exec (.ldMemVx x) s = .next (faultedWith .memBounds (s.index.toNat + x.toNat) s) ∧
      exec (.ldVxMem x) s = .next (faultedWith .memBounds (s.index.toNat + x.toNat) s)) ∧
    (1 ≤ n.toNat → s.index.toNat + n.toNat - 1 > 0xFFF →
      exec (.drwVxVyN x y n) s = .next (faultedWith .memBounds (s.index.toNat + n.toNat - 1) s))

/-- A stored word is what the very next fetch there reads: after a register dump of two or more registers, a
state with that memory and `pc` at `I` fetches `V[0]` in bits 15:8 and `V[1]` in bits 7:0 (20_memory.md
section 10, derived there; R44). -/
def Obligations.StoreIsSeenByTheNextFetch : Prop :=
  ∀ (x : Reg) (s : State), 1 ≤ x.toNat → s.dataAddr x.toNat ≤ 0xFFF →
    ∃ t, exec (.ldMemVx x) s = .next t ∧
      ∀ u : State, u.mem = t.mem → u.pc = s.index → (fetchWord u).toNat = (s.reg 0).toNat * 256 + (s.reg 1).toNat

/-! ### Display (43_display.md) -/

/-- `CLS` turns every pixel off and advances `pc`; `vF`, `draw_pending` and everything else are as before
(R140 with D18, log 22). -/
def Obligations.ClearScreenTurnsEveryPixelOff : Prop :=
  ∀ s : State, ∃ t, exec .cls s = .next t ∧ (∀ r c, r < 32 → c < 64 → pixel t.fb r c = false) ∧
    t.pc = s.pc + 2 ∧ t = { s with fb := t.fb, pc := t.pc } ∧ SameBytes s t

/-- `DRW` in range flips exactly the pixels its set bits land on, each axis wrapped by itself; `vF` is 1 iff
one of them was on, else 0; `draw_pending` is set, with `n = 0` too; nothing else changes (R141, R142 with D4,
D21, D22; log 11). -/
def Obligations.DrawFlipsTheCoveredPixels : Prop :=
  ∀ (x y : Reg) (n : Nibble) (s : State), SpriteInMemory s n →
    ∃ t, exec (.drwVxVyN x y n) s = .next t ∧
      (∀ r c, r < 32 → c < 64 →
        (SpriteCovers s x y n r c → pixel t.fb r c = !pixel s.fb r c) ∧
        (¬ SpriteCovers s x y n r c → pixel t.fb r c = pixel s.fb r c)) ∧
      ((∃ r c, SpriteCovers s x y n r c ∧ pixel s.fb r c = true) → t.reg 15 = 1) ∧
      ((∀ r c, SpriteCovers s x y n r c → pixel s.fb r c = false) → t.reg 15 = 0) ∧
      (∀ q, q ≠ 15 → t.reg q = s.reg q) ∧ t.drawPending = true ∧ t.pc = s.pc + 2 ∧
      t = { s with v := t.v, pc := t.pc, fb := t.fb, drawPending := t.drawPending } ∧ SameBytes s t

/-- The same draw twice restores the screen, and the second reports `vF = 1` exactly when the first turned a
pixel on; with `vF` as a coordinate the property does not apply (43_display.md section 2, R143). -/
def Obligations.DrawTwiceRestoresTheScreen : Prop :=
  ∀ (x y : Reg) (n : Nibble) (s : State), x ≠ 15 → y ≠ 15 → SpriteInMemory s n →
    ∃ t u, exec (.drwVxVyN x y n) s = .next t ∧ exec (.drwVxVyN x y n) t = .next u ∧ u.fb = s.fb ∧
      (u.reg 15 = 1 ↔ ∃ r c, SpriteCovers s x y n r c ∧ pixel s.fb r c = false)

/-! ### Keys, timers and random (44_keys_timers_random.md) -/

/-- `SKP` and `SKNP` with a key index up to 15 go 4 or 2 on by that key's level; nothing else changes (R150,
R151; the range is D9's). -/
def Obligations.KeySkipsFollowTheKey : Prop :=
  ∀ (x : Reg) (s : State) (h : (s.reg x).toNat < 16),
    (∃ t, exec (.skpVx x) s = .next t ∧
      WritesPc s t (if s.key[(s.reg x).toNat] = true then s.pc + 4 else s.pc + 2)) ∧
    (∃ t, exec (.sknpVx x) s = .next t ∧
      WritesPc s t (if s.key[(s.reg x).toNat] = true then s.pc + 2 else s.pc + 4))

/-- `SKP` and `SKNP` with a register above 15 raise `KeyIndex` of its value; nothing else changes (R150, R151
with D9, D19). -/
def Obligations.KeyIndexAboveFifteenFaults : Prop :=
  ∀ (x : Reg) (s : State), (s.reg x).toNat > 15 →
    exec (.skpVx x) s = .next (faultedWith .keyIndex (s.reg x).toNat s) ∧
    exec (.sknpVx x) s = .next (faultedWith .keyIndex (s.reg x).toNat s)

/-- `LD Vx,K` with a key down completes at once: the lowest pressed index goes into `V[x]`, the status is
Running, `pc` advances; nothing else changes (R153 with D7; the lowest key is D8's choice, log 12). -/
def Obligations.WaitForKeyTakesTheLowestPressed : Prop :=
  ∀ (x : Reg) (s : State) (k : Fin 16), s.key[k] = true → (∀ j : Fin 16, j < k → s.key[j] = false) →
    ∃ t, exec (.ldVxK x) s = .next t ∧ (t.reg x).toNat = k.val ∧ (∀ r, r ≠ x → t.reg r = s.reg r) ∧
      t.status = .running ∧ t.pc = s.pc + 2 ∧ t = { s with v := t.v, status := t.status, pc := t.pc } ∧ SameBytes s t

/-- `LD Vx,K` with every key up only sets the status to AwaitingKey; `pc` stays at the instruction (R153 with
D7). -/
def Obligations.WaitForKeyWithoutAKeyWaits : Prop :=
  ∀ (x : Reg) (s : State), (∀ k : Fin 16, s.key[k] = false) →
    exec (.ldVxK x) s = .next { s with status := .awaitingKey }

/-- `LD Vx,DT`, `LD DT,Vx` and `LD ST,Vx` move one byte and advance `pc`; nothing else changes (R152, R154,
R155). -/
def Obligations.TimerTransfers : Prop :=
  ∀ (x : Reg) (s : State),
    (∃ t, exec (.ldVxDt x) s = .next t ∧ WritesReg s t x s.dt.toNat) ∧
    (∃ t, exec (.ldDtVx x) s = .next t ∧ t.dt = s.reg x ∧ t.pc = s.pc + 2 ∧
      t = { s with dt := t.dt, pc := t.pc } ∧ SameBytes s t) ∧
    (∃ t, exec (.ldStVx x) s = .next t ∧ t.st = s.reg x ∧ t.pc = s.pc + 2 ∧
      t = { s with st := t.st, pc := t.pc } ∧ SameBytes s t)

/-- `RND Vx,kk`: the table's byte at the index, masked, into `V[x]`, and the index one on, modulo the table's
size, whatever `kk` is; nothing else but `pc` changes (R156). It holds whatever the open table is (log 3). -/
def Obligations.RandomTakesTheNextTableByte : Prop :=
  ∀ (x : Reg) (kk : Byte) (s : State) (h : s.rngIndex < Config.rngTable.length),
    ∃ t, exec (.rndVxKk x kk) s = .next t ∧ t.reg x = Config.rngTable[s.rngIndex] &&& kk ∧
      t.rngIndex = (s.rngIndex + 1) % Config.rngTable.length ∧ (∀ r, r ≠ x → t.reg r = s.reg r) ∧
      t.pc = s.pc + 2 ∧ t = { s with v := t.v, pc := t.pc, rngIndex := t.rngIndex } ∧ SameBytes s t

/-- The pseudo-random source (R157): over any non-empty table and any seed, the `j`-th call after seeding (from
0) returns the byte at `(seed + j) mod size` and leaves the index one on; so the sequence repeats after `size`
calls. The machine starts it at the seed modulo the size, at `State.reset` and at every reset; the core's step
moves the index only by executing `RND`, one call; and no other instruction and no tick, key change or
presentation moves it. -/
def Obligations.RandomNextWalksTheTable : Prop :=
  (∀ (table : List Byte) (seed j : Nat), table ≠ [] →
    (fun i => (randomNext table i).2)^[j] (seed % table.length) = (seed + j) % table.length ∧
    some (randomNext table ((seed + j) % table.length)).1 = table[(seed + j) % table.length]? ∧
    (randomNext table ((seed + j) % table.length)).2 = (seed + j + 1) % table.length ∧
    (fun i => (randomNext table i).2)^[table.length] (seed % table.length) = seed % table.length) ∧
  (∀ (i : Instr) (s t : State), exec i s = .next t → (∀ x kk, i ≠ .rndVxKk x kk) → t.rngIndex = s.rngIndex) ∧
  (∀ (e : HostAction) (s t : State), e = .tick ∨ (∃ levels, e = .keys levels) ∨ e = .present →
    act e s = .next t → t.rngIndex = s.rngIndex) ∧
  (∀ s t : State, executeOneInstruction s = .next t →
    t.rngIndex = s.rngIndex ∨
    ∃ x kk, decodeWord (fetchWord s) = some (.rndVxKk x kk) ∧ t.rngIndex = (randomNext Config.rngTable s.rngIndex).2) ∧
  State.reset.rngIndex = Config.rngSeed % Config.rngTable.length ∧
  (∀ (seed : Nat) (program : List Byte) (s t : State), act (.reset seed program) s = .next t →
    t.rngIndex = seed % Config.rngTable.length)

/-! ### The whole machine -/

/-- The invariant holds at reset (R27, R28). -/
def Obligations.InvariantHoldsAtReset : Prop := State.reset.Inv

/-- Every step keeps the invariant: memory in canonical form, the random index inside its table, every live
stack slot a return address, a fault recorded exactly when the status is Faulted with a datum below 2^17, and
a wait only at a `LD Vx,K` (R20, R22, R23, R28; whichever agent acts, log 2). -/
def Obligations.EveryStepKeepsTheInvariant : Prop :=
  ∀ s t : State, s.Inv → step s = .next t → t.Inv

/-- No instruction ever stops the machine: every one, in every state, answers a next state (R71: "the function
is total"). -/
def Obligations.EveryInstructionAnswersANextState : Prop :=
  ∀ (i : Instr) (s : State), ∃ t, exec i s = .next t

/-- An instruction raises a fault exactly on the condition of R170's table, with its kind and datum and no
other effect; otherwise the status does not become Faulted and no record is made (R170, R173, R174 with D19,
log 1). -/
def Obligations.FaultsAreThoseOfTheTable : Prop :=
  ∀ (i : Instr) (s t : State), s.status ≠ .faulted → exec i s = .next t →
    (∀ f, tabledFault i s = some f → t = faultedWith f.kind f.info s) ∧
    (tabledFault i s = none → t.status ≠ .faulted ∧ t.fault = s.fault)

/-- A general register is written only by the instructions that the spec says write it: its destination, the
range of a register load, and `vF` by the six of R12's list (10_state.md section 3 with D5). -/
def Obligations.RegistersChangeOnlyAsListed : Prop :=
  ∀ (i : Instr) (r : Reg) (s t : State), exec i s = .next t → mayWriteReg i r = false → t.reg r = s.reg r

/-- An instruction that transfers no control leaves `pc` 2 on, or raises its fault of R170's table, or is
`LD Vx,K` with every key up and waits; the last two change nothing else (10_state.md section 5, R14's table;
a fault as a next state: log 1). -/
def Obligations.OtherInstructionsAdvanceByTwo : Prop :=
  ∀ (i : Instr) (s t : State), exec i s = .next t → transfersControl i = false →
    t.pc = s.pc + 2 ∨ (∃ f, tabledFault i s = some f ∧ t = faultedWith f.kind f.info s) ∨
      ((∃ x, i = .ldVxK x) ∧ (∀ k : Fin 16, s.key[k] = false) ∧ t = { s with status := .awaitingKey })

/-- Each piece of state has its own writers among the instructions: memory `LD B` and `LD [I]`; `I` the three
index writes; the call stack `CALL`, and its pointer `CALL` and `RET`; the frame buffer `CLS` and `DRW`;
`draw_pending` `DRW`, only to set it; `DT` and `ST` their own loads; the random index `RND`; a general register
the instructions of `mayWriteReg`; the fault record a fault of R170's table, the status that and `LD Vx,K`; `pc`
every instruction that neither raises such a fault nor waits for a key; `key`, `decode_err` and the schedule none
(R11 to R20, R22 to R24, R29, R46; faults: log 1; schedule: log 2). -/
def Obligations.EachPieceOfStateHasItsWriters : Prop :=
  ∀ (i : Instr) (s t : State), exec i s = .next t →
    ((∀ x, i ≠ .ldBVx x ∧ i ≠ .ldMemVx x) → t.mem = s.mem ∧ SameBytes s t) ∧
    ((∀ nnn x, i ≠ .ldINnn nnn ∧ i ≠ .addIVx x ∧ i ≠ .ldFVx x) → t.index = s.index) ∧
    ((∀ nnn, i ≠ .call nnn) → t.stack = s.stack ∧ (i ≠ .ret → t.sp = s.sp)) ∧
    ((∀ x y n, i ≠ .drwVxVyN x y n) → t.drawPending = s.drawPending ∧ (i ≠ .cls → t.fb = s.fb)) ∧
    (s.drawPending = true → t.drawPending = true) ∧
    ((∀ x, i ≠ .ldDtVx x) → t.dt = s.dt) ∧ ((∀ x, i ≠ .ldStVx x) → t.st = s.st) ∧
    ((∀ x kk, i ≠ .rndVxKk x kk) → t.rngIndex = s.rngIndex) ∧
    (∀ r, mayWriteReg i r = false → t.reg r = s.reg r) ∧
    (tabledFault i s = none → t.fault = s.fault ∧ ((∀ x, i ≠ .ldVxK x) → t.status = s.status)) ∧
    (tabledFault i s ≠ none → t.pc = s.pc) ∧
    ((∃ x, i = .ldVxK x) → (∀ k : Fin 16, s.key[k] = false) → t.pc = s.pc) ∧
    t.key = s.key ∧ t.decodeErr = s.decodeErr ∧ t.schedule = s.schedule

/-- The key levels reach a program through `SKP`, `SKNP` and `LD Vx,K` only: two runs of any other instruction
that differ in the keys differ in the keys alone (10_state.md section 8, R17; R179). -/
def Obligations.KeysReachOnlyTheKeyInstructions : Prop :=
  ∀ (i : Instr) (s t : State) (levels : Vector Bool 16), exec i s = .next t →
    (∀ x, i ≠ .skpVx x ∧ i ≠ .sknpVx x ∧ i ≠ .ldVxK x) →
    exec i { s with key := levels } = .next { t with key := levels }

/-- The outputs of the core are read by no instruction: whatever `decode_err` and the fault record hold, an
instruction does the same and keeps them or records its fault; `ST` and `draw_pending` are only written (R16,
R19, R23, R24). -/
def Obligations.OutputsAreReadByNoInstruction : Prop :=
  ∀ (i : Instr) (s t : State), exec i s = .next t →
    (∀ b, exec i { s with decodeErr := b } = .next { t with decodeErr := b }) ∧
    (∀ b, ∃ t', exec i { s with drawPending := b } = .next t' ∧ t = { t' with drawPending := t.drawPending }) ∧
    (∀ b, ∃ t', exec i { s with st := b } = .next t' ∧ t = { t' with st := t.st }) ∧
    (∀ f, ∃ t', exec i { s with fault := f } = .next t' ∧ t = { t' with fault := t.fault })

/-- Once finished (Running, and the word at `pc` is `JP pc`), a step that is no reset leaves all core-owned
state as it is: only the timers, the keys, `draw_pending` and the schedule can change, and the state is still
finished (70_reset_and_hazards.md section 3, R204 with D20). -/
def Obligations.FinishedStaysFinished : Prop :=
  ∀ s t : State, s.finished → (∀ seed program rest, s.schedule ≠ .reset seed program :: rest) → step s = .next t →
    t.finished ∧ t = { s with dt := t.dt, st := t.st, key := t.key, drawPending := t.drawPending, schedule := t.schedule }

/-- `decode_err` is sticky: no step of any agent but a reset clears it (10_state.md section 13, R24 with D3). -/
def Obligations.DecodeErrorStaysUntilReset : Prop :=
  ∀ s t : State, s.decodeErr = true → (∀ seed program rest, s.schedule ≠ .reset seed program :: rest) →
    step s = .next t → t.decodeErr = true
end

