-- ==== Sys2Proof/Laws/Decode.lean ====
section
/-! SUPPORT. The fields and the selector bits of a word (30_encoding.md R63, R64): a word is its four nibbles,
a mask acts nibble by nibble, and each format's fields read back. -/

namespace Sys2Proof

/-! ### Words and fields as numbers -/

theorem toNat_append_eq {m n : Nat} (a : BitVec m) (b : BitVec n) :
    (a ++ b).toNat = a.toNat * 2 ^ n + b.toNat := by
  rw [BitVec.toNat_append, ← Nat.shiftLeft_add_eq_or_of_lt b.isLt, Nat.shiftLeft_eq]

theorem toNat_formNNN (o : Nibble) (a : Addr12) : (formNNN o a).toNat = o.toNat * 4096 + a.toNat :=
  toNat_append_eq o a

theorem toNat_formXKK (o : Nibble) (x : Reg) (kk : Byte) :
    (formXKK o x kk).toNat = o.toNat * 4096 + x.toNat * 256 + kk.toNat := by
  have h : (formXKK o x kk).toNat = (o ++ x).toNat * 2 ^ 8 + kk.toNat := toNat_append_eq (o ++ x) kk
  rw [h, toNat_append_eq o x]
  ring

theorem toNat_formXYN (o : Nibble) (x y : Reg) (n : Nibble) :
    (formXYN o x y n).toNat = o.toNat * 4096 + x.toNat * 256 + y.toNat * 16 + n.toNat := by
  have h : (formXYN o x y n).toNat = (o ++ x ++ y).toNat * 2 ^ 4 + n.toNat := toNat_append_eq (o ++ x ++ y) n
  rw [h, toNat_append_eq (o ++ x) y, toNat_append_eq o x]
  ring

theorem toNat_nnnOf (op : Word) : (nnnOf op).toNat = op.toNat % 4096 := by
  simp [nnnOf, BitVec.extractLsb'_toNat]

theorem toNat_kkOf (op : Word) : (kkOf op).toNat = op.toNat % 256 := by
  simp [kkOf, BitVec.extractLsb'_toNat]

theorem toNat_nOf (op : Word) : (nOf op).toNat = op.toNat % 16 := by
  simp [nOf, BitVec.extractLsb'_toNat]

theorem toNat_yOf (op : Word) : (yOf op).toNat = op.toNat / 16 % 16 := by
  simp [yOf, BitVec.extractLsb'_toNat, Nat.shiftRight_eq_div_pow]

theorem toNat_xOf (op : Word) : (xOf op).toNat = op.toNat / 256 % 16 := by
  simp [xOf, BitVec.extractLsb'_toNat, Nat.shiftRight_eq_div_pow]

theorem toNat_highNibbleOf (op : Word) : (highNibbleOf op).toNat = op.toNat / 4096 := by
  have := op.isLt
  simp [highNibbleOf, BitVec.extractLsb'_toNat, Nat.shiftRight_eq_div_pow]
  omega

/-! ### Fields of the formats -/

@[simp] theorem nnnOf_formNNN (o : Nibble) (a : Addr12) : nnnOf (formNNN o a) = a := by
  have := a.isLt
  apply BitVec.eq_of_toNat_eq
  rw [toNat_nnnOf, toNat_formNNN]
  omega

@[simp] theorem xOf_formXKK (o : Nibble) (x : Reg) (kk : Byte) : xOf (formXKK o x kk) = x := by
  have := x.isLt
  have := kk.isLt
  apply BitVec.eq_of_toNat_eq
  rw [toNat_xOf, toNat_formXKK]
  omega

@[simp] theorem kkOf_formXKK (o : Nibble) (x : Reg) (kk : Byte) : kkOf (formXKK o x kk) = kk := by
  have := kk.isLt
  apply BitVec.eq_of_toNat_eq
  rw [toNat_kkOf, toNat_formXKK]
  omega

@[simp] theorem highNibbleOf_formXYN (o : Nibble) (x y : Reg) (n : Nibble) : highNibbleOf (formXYN o x y n) = o := by
  have := x.isLt
  have := y.isLt
  have := n.isLt
  apply BitVec.eq_of_toNat_eq
  rw [toNat_highNibbleOf, toNat_formXYN]
  omega

@[simp] theorem xOf_formXYN (o : Nibble) (x y : Reg) (n : Nibble) : xOf (formXYN o x y n) = x := by
  have := x.isLt
  have := y.isLt
  have := n.isLt
  apply BitVec.eq_of_toNat_eq
  rw [toNat_xOf, toNat_formXYN]
  omega

@[simp] theorem yOf_formXYN (o : Nibble) (x y : Reg) (n : Nibble) : yOf (formXYN o x y n) = y := by
  have := y.isLt
  have := n.isLt
  apply BitVec.eq_of_toNat_eq
  rw [toNat_yOf, toNat_formXYN]
  omega

@[simp] theorem nOf_formXYN (o : Nibble) (x y : Reg) (n : Nibble) : nOf (formXYN o x y n) = n := by
  have := n.isLt
  apply BitVec.eq_of_toNat_eq
  rw [toNat_nOf, toNat_formXYN]
  omega

/-! ### A word is its four nibbles, and a mask acts on each -/

theorem formXYN_fields (op : Word) : formXYN (highNibbleOf op) (xOf op) (yOf op) (nOf op) = op := by
  have := op.isLt
  apply BitVec.eq_of_toNat_eq
  rw [toNat_formXYN, toNat_highNibbleOf, toNat_xOf, toNat_yOf, toNat_nOf]
  omega

/-- Format XKK by nibbles: `kk = y ++ n` (R63). -/
theorem formXKK_eq_formXYN (o : Nibble) (x : Reg) (kk : Byte) :
    formXKK o x kk = formXYN o x (kk.extractLsb' 4 4) (kk.extractLsb' 0 4) := by
  have := kk.isLt
  apply BitVec.eq_of_toNat_eq
  rw [toNat_formXKK, toNat_formXYN]
  simp only [BitVec.extractLsb'_toNat, Nat.shiftRight_eq_div_pow]
  omega

/-- Format NNN by nibbles: `nnn = x ++ y ++ n` (R63). -/
theorem formNNN_eq_formXYN (o : Nibble) (a : Addr12) :
    formNNN o a = formXYN o (a.extractLsb' 8 4) (a.extractLsb' 4 4) (a.extractLsb' 0 4) := by
  have := a.isLt
  apply BitVec.eq_of_toNat_eq
  rw [toNat_formNNN, toNat_formXYN]
  simp only [BitVec.extractLsb'_toNat, Nat.shiftRight_eq_div_pow]
  omega

@[simp] theorem highNibbleOf_formNNN (o : Nibble) (a : Addr12) : highNibbleOf (formNNN o a) = o := by
  rw [formNNN_eq_formXYN, highNibbleOf_formXYN]

@[simp] theorem highNibbleOf_formXKK (o : Nibble) (x : Reg) (kk : Byte) : highNibbleOf (formXKK o x kk) = o := by
  rw [formXKK_eq_formXYN, highNibbleOf_formXYN]

@[simp] theorem yOf_formXKK (o : Nibble) (x : Reg) (kk : Byte) : yOf (formXKK o x kk) = kk.extractLsb' 4 4 := by
  rw [formXKK_eq_formXYN, yOf_formXYN]

@[simp] theorem nOf_formXKK (o : Nibble) (x : Reg) (kk : Byte) : nOf (formXKK o x kk) = kk.extractLsb' 0 4 := by
  rw [formXKK_eq_formXYN, nOf_formXYN]

theorem formXYN_and (o x y n o' x' y' n' : Nibble) :
    formXYN o x y n &&& formXYN o' x' y' n' = formXYN (o &&& o') (x &&& x') (y &&& y') (n &&& n') := by
  have h1 : (o ++ x ++ y ++ n) &&& (o' ++ x' ++ y' ++ n') = ((o ++ x ++ y) &&& (o' ++ x' ++ y')) ++ (n &&& n') :=
    BitVec.and_append
  have h2 : (o ++ x ++ y) &&& (o' ++ x' ++ y') = ((o ++ x) &&& (o' ++ x')) ++ (y &&& y') := BitVec.and_append
  have h3 : (o ++ x) &&& (o' ++ x') = (o &&& o') ++ (x &&& x') := BitVec.and_append
  rw [h2, h3] at h1
  exact h1

theorem formXYN_inj (o x y n o' x' y' n' : Nibble) :
    formXYN o x y n = formXYN o' x' y' n' ↔ o = o' ∧ x = x' ∧ y = y' ∧ n = n' := by
  refine ⟨fun h => ⟨?_, ?_, ?_, ?_⟩, fun ⟨h1, h2, h3, h4⟩ => by rw [h1, h2, h3, h4]⟩
  · rw [← highNibbleOf_formXYN o x y n, h, highNibbleOf_formXYN]
  · rw [← xOf_formXYN o x y n, h, xOf_formXYN]
  · rw [← yOf_formXYN o x y n, h, yOf_formXYN]
  · rw [← nOf_formXYN o x y n, h, nOf_formXYN]

/-- Whether a row selects a word, nibble by nibble (R65, R71). -/
theorem selects_iff (op : Word) (po px py pn mo mx my mn : Nibble) (f : Word → Instr) :
    OpcodeRow.selects ⟨formXYN po px py pn, formXYN mo mx my mn, f⟩ op = true ↔
      highNibbleOf op &&& mo = po ∧ xOf op &&& mx = px ∧ yOf op &&& my = py ∧ nOf op &&& mn = pn := by
  rw [OpcodeRow.selects, beq_iff_eq]
  conv => lhs; rw [← formXYN_fields op]
  rw [formXYN_and, formXYN_inj]

end Sys2Proof
end

