-- ==== Sys2Proof/Laws/Display.lean ====
section
/-! SUPPORT. What drawing does to one pixel and to the collision (43_display.md R141, R142 item 5): a sprite is a
list of points, none twice, each of which flips. -/

namespace Sys2Proof.Machine

theorem pixel_mod (f : FrameBuffer) (r c : Nat) : pixel f (r % 32) (c % 64) = pixel f r c := by
  simp [pixel]

/-- A flipped pixel is inverted and every other pixel is as before. -/
theorem pixel_flipPixel (f : FrameBuffer) (r c r' c' : Nat) :
    pixel (flipPixel f r c) r' c' =
      if r' % 32 = r % 32 ∧ c' % 64 = c % 64 then !pixel f r c else pixel f r' c' := by
  by_cases hr : r % 32 = r' % 32
  · by_cases hc : c % 64 = c' % 64
    · simp [pixel, flipPixel, hr, hc]
    · rw [if_neg fun h => hc h.2.symm]
      simp [pixel, flipPixel, hr, hc]
  · rw [if_neg fun h => hr h.1.symm]
    simp [pixel, flipPixel, hr]

/-- Two frame buffers with the same pixels are the same. -/
theorem frameBuffer_ext {f g : FrameBuffer} (h : ∀ r c, r < 32 → c < 64 → pixel f r c = pixel g r c) : f = g := by
  apply Vector.ext
  intro r hr
  apply Vector.ext
  intro c hc
  simpa [pixel, Nat.mod_eq_of_lt hr, Nat.mod_eq_of_lt hc] using h r c hr hc

/-- The points a sprite row sets, reduced to the screen. -/
def rowPoints (X r : Nat) (row : Byte) : List (Nat × Nat) :=
  ((List.range 8).filter (spriteBit row)).map fun b => (r % 32, (X + b) % 64)

/-- The points a sprite sets, reduced to the screen. -/
def spritePoints (X : Nat) : Nat → List Byte → List (Nat × Nat)
  | _, [] => []
  | Y, row :: rows => rowPoints X Y row ++ spritePoints X (Y + 1) rows

theorem drawPixel_mod (k : Canvas) (r c : Nat) : drawPixel k (r % 32) (c % 64) = drawPixel k r c := by
  simp [drawPixel, flipPixel, pixel]

theorem drawRow_eq_fold (k : Canvas) (X r : Nat) (row : Byte) :
    drawRow k X r row = (rowPoints X r row).foldl (fun k p => drawPixel k p.1 p.2) k := by
  simp only [drawRow, rowPoints, List.foldl_map, List.foldl_filter, drawPixel_mod]

theorem drawSprite_eq_fold (k : Canvas) (X Y : Nat) (rows : List Byte) :
    drawSprite k X Y rows = (spritePoints X Y rows).foldl (fun k p => drawPixel k p.1 p.2) k := by
  induction rows generalizing k Y with
  | nil => rfl
  | cons row rows ih => rw [drawSprite, spritePoints, List.foldl_append, ← drawRow_eq_fold, ih]

theorem mem_rowPoints (X r : Nat) (row : Byte) (p : Nat × Nat) :
    p ∈ rowPoints X r row ↔ ∃ b < 8, spriteBit row b = true ∧ p = (r % 32, (X + b) % 64) := by
  simp only [rowPoints, List.mem_map, List.mem_filter, List.mem_range]
  exact ⟨fun ⟨b, ⟨h1, h2⟩, h3⟩ => ⟨b, h1, h2, h3.symm⟩, fun ⟨b, h1, h2, h3⟩ => ⟨b, ⟨h1, h2⟩, h3.symm⟩⟩

/-- A point is set by a sprite exactly when some row `j` and some bit `b` put it there (R141). -/
theorem mem_spritePoints (X Y : Nat) (rows : List Byte) (p : Nat × Nat) :
    p ∈ spritePoints X Y rows ↔ ∃ j, ∃ h : j < rows.length, ∃ b < 8, spriteBit rows[j] b = true ∧
      p = ((Y + j) % 32, (X + b) % 64) := by
  induction rows generalizing Y with
  | nil => simp [spritePoints]
  | cons row rows ih =>
    rw [spritePoints, List.mem_append, mem_rowPoints, ih]
    constructor
    · rintro (⟨b, hb, hs, rfl⟩ | ⟨j, hj, b, hb, hs, rfl⟩)
      · exact ⟨0, by simp, b, hb, by simpa using hs, by simp⟩
      · exact ⟨j + 1, by simpa using hj, b, hb, by simpa using hs, by rw [show Y + 1 + j = Y + (j + 1) by omega]⟩
    · rintro ⟨j, hj, b, hb, hs, rfl⟩
      cases j with
      | zero => exact .inl ⟨b, hb, by simpa using hs, by simp⟩
      | succ j =>
        exact .inr ⟨j, by simpa using hj, b, hb, by simpa using hs, by rw [show Y + 1 + j = Y + (j + 1) by omega]⟩

/-- No pixel is touched twice within one sprite (R142 item 5). -/
theorem nodup_spritePoints (X Y : Nat) (rows : List Byte) (h : rows.length ≤ 32) :
    (spritePoints X Y rows).Nodup := by
  induction rows generalizing Y with
  | nil => simp [spritePoints]
  | cons row rows ih =>
    simp only [List.length_cons] at h
    rw [spritePoints, List.nodup_append]
    refine ⟨?_, ih (Y + 1) (by omega), ?_⟩
    · refine List.Nodup.map_on ?_ (List.nodup_range.filter _)
      intro b hb b' hb' e
      have hb := List.mem_range.mp (List.mem_filter.mp hb).1
      have hb' := List.mem_range.mp (List.mem_filter.mp hb').1
      have := (Prod.mk.inj e).2
      omega
    · intro p hp q hq e
      obtain ⟨b, hb, -, rfl⟩ := (mem_rowPoints _ _ _ _).mp hp
      obtain ⟨j, hj, b', hb', -, rfl⟩ := (mem_spritePoints _ _ _ _).mp hq
      have := (Prod.mk.inj e).1
      omega

/-- Drawing distinct points flips exactly those, and collides iff one of them was on. -/
theorem fold_drawPixel (ps : List (Nat × Nat)) (hn : ps.Nodup) (hp : ∀ p ∈ ps, p.1 < 32 ∧ p.2 < 64) (k : Canvas) :
    (∀ r c, r < 32 → c < 64 → pixel (ps.foldl (fun k p => drawPixel k p.1 p.2) k).fb r c =
      (pixel k.fb r c ^^ decide ((r, c) ∈ ps))) ∧
    ((ps.foldl (fun k p => drawPixel k p.1 p.2) k).coll = true ↔
      k.coll = true ∨ ∃ p ∈ ps, pixel k.fb p.1 p.2 = true) := by
  induction ps generalizing k with
  | nil => simp
  | cons p ps ih =>
    obtain ⟨hpn, hn⟩ := List.nodup_cons.mp hn
    have h0 := hp p (by simp)
    obtain ⟨ih1, ih2⟩ := ih hn (fun q hq => hp q (by simp [hq])) (drawPixel k p.1 p.2)
    have flip : ∀ r c, r < 32 → c < 64 → pixel (drawPixel k p.1 p.2).fb r c =
        if (r, c) = p then !pixel k.fb r c else pixel k.fb r c := by
      intro r c hr hc
      simp only [drawPixel, pixel_flipPixel, Nat.mod_eq_of_lt hr, Nat.mod_eq_of_lt hc, Nat.mod_eq_of_lt h0.1,
        Nat.mod_eq_of_lt h0.2, Prod.ext_iff]
      split
      · rename_i e; rw [e.1, e.2]
      · rfl
    refine ⟨fun r c hr hc => ?_, ?_⟩
    · rw [List.foldl_cons, ih1 r c hr hc, flip r c hr hc]
      by_cases e : (r, c) = p
      · subst e; simp [hpn]
      · simp [e]
    · rw [List.foldl_cons, ih2]
      simp only [drawPixel, Bool.or_eq_true, List.mem_cons, exists_eq_or_imp]
      have same : ∀ q ∈ ps, pixel (flipPixel k.fb p.1 p.2) q.1 q.2 = pixel k.fb q.1 q.2 := by
        intro q hq
        have hq' := hp q (by simp [hq])
        have := flip q.1 q.2 hq'.1 hq'.2
        rw [if_neg (by rintro rfl; exact hpn hq)] at this
        exact this
      constructor
      · rintro ((h | h) | ⟨q, hq, h⟩)
        · exact .inl h
        · exact .inr (.inl h)
        · exact .inr (.inr ⟨q, hq, by rwa [same q hq] at h⟩)
      · rintro (h | h | ⟨q, hq, h⟩)
        · exact .inl (.inl h)
        · exact .inl (.inr h)
        · exact .inr ⟨q, hq, by rwa [same q hq]⟩

theorem spritePoints_on_screen (X Y : Nat) (rows : List Byte) (p : Nat × Nat) (h : p ∈ spritePoints X Y rows) :
    p.1 < 32 ∧ p.2 < 64 := by
  obtain ⟨j, hj, b, hb, -, rfl⟩ := (mem_spritePoints _ _ _ _).mp h
  exact ⟨Nat.mod_lt _ (by decide), Nat.mod_lt _ (by decide)⟩

/-- What a sprite of at most 32 rows does to a pixel: it flips iff the sprite sets its point. -/
theorem pixel_drawSprite (k : Canvas) (X Y : Nat) (rows : List Byte) (h : rows.length ≤ 32) (r c : Nat)
    (hr : r < 32) (hc : c < 64) :
    pixel (drawSprite k X Y rows).fb r c = (pixel k.fb r c ^^ decide ((r, c) ∈ spritePoints X Y rows)) := by
  rw [drawSprite_eq_fold]
  exact (fold_drawPixel _ (nodup_spritePoints X Y rows h) (spritePoints_on_screen X Y rows) k).1 r c hr hc

/-- When a sprite of at most 32 rows collides: some point it sets was on. -/
theorem coll_drawSprite (k : Canvas) (X Y : Nat) (rows : List Byte) (h : rows.length ≤ 32) :
    (drawSprite k X Y rows).coll = true ↔
      k.coll = true ∨ ∃ p ∈ spritePoints X Y rows, pixel k.fb p.1 p.2 = true := by
  rw [drawSprite_eq_fold]
  exact (fold_drawPixel _ (nodup_spritePoints X Y rows h) (spritePoints_on_screen X Y rows) k).2

end Sys2Proof.Machine
end

