-- ==== Sys2Proof/Laws/Memory.lean ====
section
/-! SUPPORT. What the memory operations do: a read after a write, that the other addresses are left alone, and
that every operation keeps the canonical form. -/

namespace Sys2Proof.Machine

@[simp] theorem read_nil (a : Nat) : Memory.read [] a = unlistedByte a := rfl

theorem read_cons (b : Nat) (v : Byte) (m : Memory) (a : Nat) :
    Memory.read ((b, v) :: m) a = if a = b then v else Memory.read m a := rfl

/-- An address that no cell lists reads as its reset content. -/
theorem read_of_not_listed (m : Memory) (a : Nat) (h : ∀ c ∈ m, c.1 ≠ a) : m.read a = unlistedByte a := by
  induction m with
  | nil => rfl
  | cons c m ih =>
    have hc : a ≠ c.1 := fun e => h c (by simp) e.symm
    rw [show (c :: m) = ((c.1, c.2) :: m) from rfl, read_cons, if_neg hc]
    exact ih fun d hd => h d (by simp [hd])

theorem read_filter_same (m : Memory) (a : Nat) :
    Memory.read (m.filter (fun c => c.1 != a)) a = unlistedByte a :=
  read_of_not_listed _ _ fun c hc => by simpa using (List.mem_filter.mp hc).2

theorem read_filter_ne (m : Memory) (a b : Nat) (h : b ≠ a) :
    Memory.read (m.filter (fun c => c.1 != a)) b = m.read b := by
  induction m with
  | nil => rfl
  | cons c m ih =>
    by_cases hc : c.1 = a
    · rw [List.filter_cons_of_neg (by simp [hc]), ih, show (c :: m) = ((c.1, c.2) :: m) from rfl, read_cons,
        if_neg (by omega)]
    · rw [List.filter_cons_of_pos (by simp [hc]), show ∀ l : Memory, (c :: l) = ((c.1, c.2) :: l) from fun _ => rfl,
        read_cons, read_cons, ih]

theorem read_place_same (m : Memory) (a : Nat) (v : Byte) (h : ∀ c ∈ m, c.1 ≠ a) :
    (Memory.place m (a, v)).read a = v := by
  induction m with
  | nil => simp [Memory.place, read_cons]
  | cons d m ih =>
    rw [Memory.place]
    split
    · simp [read_cons]
    · have hd : a ≠ d.1 := fun e => h d (by simp) e.symm
      rw [show ∀ l : Memory, (d :: l) = ((d.1, d.2) :: l) from fun _ => rfl, read_cons, if_neg hd]
      exact ih fun c hc => h c (by simp [hc])

theorem read_place_ne (m : Memory) (a b : Nat) (v : Byte) (h : b ≠ a) :
    (Memory.place m (a, v)).read b = m.read b := by
  induction m with
  | nil => simp [Memory.place, read_cons, h]
  | cons d m ih =>
    rw [Memory.place]
    split
    · rw [read_cons, if_neg h]
    · rw [show ∀ l : Memory, (d :: l) = ((d.1, d.2) :: l) from fun _ => rfl, read_cons, read_cons, ih]

theorem not_listed_filter (m : Memory) (a : Nat) : ∀ c ∈ m.filter (fun c => c.1 != a), c.1 ≠ a :=
  fun c hc => by simpa using (List.mem_filter.mp hc).2

/-- A read after a write to the same address gives the byte written (20_memory.md R47). -/
@[simp] theorem read_write_same (m : Memory) (a : Nat) (v : Byte) : (m.write a v).read a = v := by
  rw [Memory.write]
  split
  · rename_i h
    rw [read_filter_same, h]
  · exact read_place_same _ _ _ (not_listed_filter m a)

/-- A write leaves every other address alone. -/
theorem read_write_ne (m : Memory) (a b : Nat) (v : Byte) (h : b ≠ a) : (m.write a v).read b = m.read b := by
  rw [Memory.write]
  split
  · exact read_filter_ne m a b h
  · rw [read_place_ne _ _ _ _ h, read_filter_ne m a b h]

/-- A run of stored bytes leaves every address outside the run alone. -/
theorem read_writeBytes_outside (bs : List Byte) (m : Memory) (a b : Nat) (h : b < a ∨ a + bs.length ≤ b) :
    (m.writeBytes a bs).read b = m.read b := by
  induction bs generalizing m a with
  | nil => rfl
  | cons c bs ih =>
    simp only [List.length_cons] at h
    rw [Memory.writeBytes, ih _ _ (by omega), read_write_ne _ _ _ _ (by omega)]

/-- A run of stored bytes reads back byte by byte. -/
theorem read_writeBytes_inside (bs : List Byte) (m : Memory) (a k : Nat) (h : k < bs.length) :
    (m.writeBytes a bs).read (a + k) = bs[k] := by
  induction bs generalizing m a k with
  | nil => simp at h
  | cons c bs ih =>
    rw [Memory.writeBytes]
    cases k with
    | zero => rw [read_writeBytes_outside _ _ _ _ (by omega)]; simp
    | succ k =>
      rw [show a + (k + 1) = a + 1 + k by omega, ih _ _ _ (by simpa using h)]
      simp

@[simp] theorem length_readBytes (m : Memory) (a n : Nat) : (m.readBytes a n).length = n := by
  simp [Memory.readBytes]

@[simp] theorem getElem_readBytes (m : Memory) (a n k : Nat) (h : k < (m.readBytes a n).length) :
    (m.readBytes a n)[k] = m.read (a + k) := by
  simp [Memory.readBytes]

theorem mem_place (m : Memory) (c d : Host.Cell) : d ∈ Memory.place m c ↔ d = c ∨ d ∈ m := by
  induction m with
  | nil => simp [Memory.place]
  | cons e m ih =>
    rw [Memory.place]
    split
    · simp
    · simp [ih, or_left_comm]

theorem pairwise_place (m : Memory) (c : Host.Cell) (h : m.Pairwise (fun c d => c.1 < d.1))
    (hc : ∀ d ∈ m, d.1 ≠ c.1) : (Memory.place m c).Pairwise (fun c d => c.1 < d.1) := by
  induction m with
  | nil => simp [Memory.place]
  | cons e m ih =>
    have he := List.pairwise_cons.mp h
    rw [Memory.place]
    split
    · rename_i hlt
      refine List.pairwise_cons.mpr ⟨fun d hd => ?_, h⟩
      rcases List.mem_cons.mp hd with rfl | hd
      · exact hlt
      · exact lt_trans hlt (he.1 d hd)
    · rename_i hlt
      refine List.pairwise_cons.mpr ⟨fun d hd => ?_, ih he.2 fun d hd => hc d (by simp [hd])⟩
      rcases (mem_place m c d).mp hd with rfl | hd
      · have := hc e (by simp)
        omega
      · exact he.1 d hd

@[simp] theorem wf_nil : Memory.wf [] := by simp [Memory.wf]

/-- A write inside memory keeps the canonical form. -/
theorem wf_write (m : Memory) (a : Nat) (v : Byte) (h : m.wf) (ha : a ≤ 0xFFF) : (m.write a v).wf := by
  have hp := h.1.sublist (List.filter_sublist (p := fun c => c.1 != a))
  have hm : ∀ c ∈ m.filter (fun c => c.1 != a), c.1 ≤ 0xFFF ∧ c.2 ≠ unlistedByte c.1 :=
    fun c hc => h.2 c (List.mem_filter.mp hc).1
  rw [Memory.write]
  split
  · exact ⟨hp, hm⟩
  · rename_i hv
    refine ⟨pairwise_place _ _ hp (not_listed_filter m a), fun c hc => ?_⟩
    rcases (mem_place _ _ _).mp hc with rfl | hc
    · exact ⟨ha, hv⟩
    · exact hm c hc

/-- A run of stores inside memory keeps the canonical form. -/
theorem wf_writeBytes (bs : List Byte) (m : Memory) (a : Nat) (h : m.wf) (ha : a + bs.length ≤ 0x1000) :
    (m.writeBytes a bs).wf := by
  induction bs generalizing m a with
  | nil => exact h
  | cons c bs ih =>
    simp only [List.length_cons] at ha
    exact ih _ _ (wf_write _ _ _ h (by omega)) (by omega)

end Sys2Proof.Machine
end

