-- ==== Sys2Proof/Laws/State.lean ====
section
/-! SUPPORT. One lemma per field per update, each true by unfolding the update: what an update leaves
unchanged, and what it writes. -/

namespace Sys2Proof.Machine

/-! ### a register write -/

@[simp] theorem setReg_index (s : State) (r : Reg) (b : Byte) : (s.setReg r b).index = s.index := rfl
@[simp] theorem setReg_pc (s : State) (r : Reg) (b : Byte) : (s.setReg r b).pc = s.pc := rfl
@[simp] theorem setReg_sp (s : State) (r : Reg) (b : Byte) : (s.setReg r b).sp = s.sp := rfl
@[simp] theorem setReg_stack (s : State) (r : Reg) (b : Byte) : (s.setReg r b).stack = s.stack := rfl
@[simp] theorem setReg_dt (s : State) (r : Reg) (b : Byte) : (s.setReg r b).dt = s.dt := rfl
@[simp] theorem setReg_st (s : State) (r : Reg) (b : Byte) : (s.setReg r b).st = s.st := rfl
@[simp] theorem setReg_mem (s : State) (r : Reg) (b : Byte) : (s.setReg r b).mem = s.mem := rfl
@[simp] theorem setReg_key (s : State) (r : Reg) (b : Byte) : (s.setReg r b).key = s.key := rfl
@[simp] theorem setReg_fb (s : State) (r : Reg) (b : Byte) : (s.setReg r b).fb = s.fb := rfl
@[simp] theorem setReg_drawPending (s : State) (r : Reg) (b : Byte) : (s.setReg r b).drawPending = s.drawPending := rfl
@[simp] theorem setReg_rngIndex (s : State) (r : Reg) (b : Byte) : (s.setReg r b).rngIndex = s.rngIndex := rfl
@[simp] theorem setReg_status (s : State) (r : Reg) (b : Byte) : (s.setReg r b).status = s.status := rfl
@[simp] theorem setReg_fault (s : State) (r : Reg) (b : Byte) : (s.setReg r b).fault = s.fault := rfl
@[simp] theorem setReg_decodeErr (s : State) (r : Reg) (b : Byte) : (s.setReg r b).decodeErr = s.decodeErr := rfl
@[simp] theorem setReg_schedule (s : State) (r : Reg) (b : Byte) : (s.setReg r b).schedule = s.schedule := rfl

/-! ### a write of registers from V[0] up -/

@[simp] theorem setRegs_index (s : State) (bs : List Byte) : (s.setRegs bs).index = s.index := rfl
@[simp] theorem setRegs_pc (s : State) (bs : List Byte) : (s.setRegs bs).pc = s.pc := rfl
@[simp] theorem setRegs_sp (s : State) (bs : List Byte) : (s.setRegs bs).sp = s.sp := rfl
@[simp] theorem setRegs_stack (s : State) (bs : List Byte) : (s.setRegs bs).stack = s.stack := rfl
@[simp] theorem setRegs_dt (s : State) (bs : List Byte) : (s.setRegs bs).dt = s.dt := rfl
@[simp] theorem setRegs_st (s : State) (bs : List Byte) : (s.setRegs bs).st = s.st := rfl
@[simp] theorem setRegs_mem (s : State) (bs : List Byte) : (s.setRegs bs).mem = s.mem := rfl
@[simp] theorem setRegs_key (s : State) (bs : List Byte) : (s.setRegs bs).key = s.key := rfl
@[simp] theorem setRegs_fb (s : State) (bs : List Byte) : (s.setRegs bs).fb = s.fb := rfl
@[simp] theorem setRegs_drawPending (s : State) (bs : List Byte) : (s.setRegs bs).drawPending = s.drawPending := rfl
@[simp] theorem setRegs_rngIndex (s : State) (bs : List Byte) : (s.setRegs bs).rngIndex = s.rngIndex := rfl
@[simp] theorem setRegs_status (s : State) (bs : List Byte) : (s.setRegs bs).status = s.status := rfl
@[simp] theorem setRegs_fault (s : State) (bs : List Byte) : (s.setRegs bs).fault = s.fault := rfl
@[simp] theorem setRegs_decodeErr (s : State) (bs : List Byte) : (s.setRegs bs).decodeErr = s.decodeErr := rfl
@[simp] theorem setRegs_schedule (s : State) (bs : List Byte) : (s.setRegs bs).schedule = s.schedule := rfl

/-! ### the advance of pc -/

@[simp] theorem advance_v (s : State) : s.advance.v = s.v := rfl
@[simp] theorem advance_index (s : State) : s.advance.index = s.index := rfl
@[simp] theorem advance_sp (s : State) : s.advance.sp = s.sp := rfl
@[simp] theorem advance_stack (s : State) : s.advance.stack = s.stack := rfl
@[simp] theorem advance_dt (s : State) : s.advance.dt = s.dt := rfl
@[simp] theorem advance_st (s : State) : s.advance.st = s.st := rfl
@[simp] theorem advance_mem (s : State) : s.advance.mem = s.mem := rfl
@[simp] theorem advance_key (s : State) : s.advance.key = s.key := rfl
@[simp] theorem advance_fb (s : State) : s.advance.fb = s.fb := rfl
@[simp] theorem advance_drawPending (s : State) : s.advance.drawPending = s.drawPending := rfl
@[simp] theorem advance_rngIndex (s : State) : s.advance.rngIndex = s.rngIndex := rfl
@[simp] theorem advance_status (s : State) : s.advance.status = s.status := rfl
@[simp] theorem advance_fault (s : State) : s.advance.fault = s.fault := rfl
@[simp] theorem advance_decodeErr (s : State) : s.advance.decodeErr = s.decodeErr := rfl
@[simp] theorem advance_schedule (s : State) : s.advance.schedule = s.schedule := rfl

/-! ### a write of pc -/

@[simp] theorem jump_v (s : State) (t : Word) : (s.jump t).v = s.v := rfl
@[simp] theorem jump_index (s : State) (t : Word) : (s.jump t).index = s.index := rfl
@[simp] theorem jump_sp (s : State) (t : Word) : (s.jump t).sp = s.sp := rfl
@[simp] theorem jump_stack (s : State) (t : Word) : (s.jump t).stack = s.stack := rfl
@[simp] theorem jump_dt (s : State) (t : Word) : (s.jump t).dt = s.dt := rfl
@[simp] theorem jump_st (s : State) (t : Word) : (s.jump t).st = s.st := rfl
@[simp] theorem jump_mem (s : State) (t : Word) : (s.jump t).mem = s.mem := rfl
@[simp] theorem jump_key (s : State) (t : Word) : (s.jump t).key = s.key := rfl
@[simp] theorem jump_fb (s : State) (t : Word) : (s.jump t).fb = s.fb := rfl
@[simp] theorem jump_drawPending (s : State) (t : Word) : (s.jump t).drawPending = s.drawPending := rfl
@[simp] theorem jump_rngIndex (s : State) (t : Word) : (s.jump t).rngIndex = s.rngIndex := rfl
@[simp] theorem jump_status (s : State) (t : Word) : (s.jump t).status = s.status := rfl
@[simp] theorem jump_fault (s : State) (t : Word) : (s.jump t).fault = s.fault := rfl
@[simp] theorem jump_decodeErr (s : State) (t : Word) : (s.jump t).decodeErr = s.decodeErr := rfl
@[simp] theorem jump_schedule (s : State) (t : Word) : (s.jump t).schedule = s.schedule := rfl

/-! ### a skip -/

@[simp] theorem skipIf_v (s : State) (c : Bool) : (s.skipIf c).v = s.v := rfl
@[simp] theorem skipIf_index (s : State) (c : Bool) : (s.skipIf c).index = s.index := rfl
@[simp] theorem skipIf_sp (s : State) (c : Bool) : (s.skipIf c).sp = s.sp := rfl
@[simp] theorem skipIf_stack (s : State) (c : Bool) : (s.skipIf c).stack = s.stack := rfl
@[simp] theorem skipIf_dt (s : State) (c : Bool) : (s.skipIf c).dt = s.dt := rfl
@[simp] theorem skipIf_st (s : State) (c : Bool) : (s.skipIf c).st = s.st := rfl
@[simp] theorem skipIf_mem (s : State) (c : Bool) : (s.skipIf c).mem = s.mem := rfl
@[simp] theorem skipIf_key (s : State) (c : Bool) : (s.skipIf c).key = s.key := rfl
@[simp] theorem skipIf_fb (s : State) (c : Bool) : (s.skipIf c).fb = s.fb := rfl
@[simp] theorem skipIf_drawPending (s : State) (c : Bool) : (s.skipIf c).drawPending = s.drawPending := rfl
@[simp] theorem skipIf_rngIndex (s : State) (c : Bool) : (s.skipIf c).rngIndex = s.rngIndex := rfl
@[simp] theorem skipIf_status (s : State) (c : Bool) : (s.skipIf c).status = s.status := rfl
@[simp] theorem skipIf_fault (s : State) (c : Bool) : (s.skipIf c).fault = s.fault := rfl
@[simp] theorem skipIf_decodeErr (s : State) (c : Bool) : (s.skipIf c).decodeErr = s.decodeErr := rfl
@[simp] theorem skipIf_schedule (s : State) (c : Bool) : (s.skipIf c).schedule = s.schedule := rfl

/-! ### a flag write, a result write and the advance -/

@[simp] theorem writeFlagged_index (s : State) (x : Reg) (f b : Byte) : (s.writeFlagged x f b).index = s.index := rfl
@[simp] theorem writeFlagged_sp (s : State) (x : Reg) (f b : Byte) : (s.writeFlagged x f b).sp = s.sp := rfl
@[simp] theorem writeFlagged_stack (s : State) (x : Reg) (f b : Byte) : (s.writeFlagged x f b).stack = s.stack := rfl
@[simp] theorem writeFlagged_dt (s : State) (x : Reg) (f b : Byte) : (s.writeFlagged x f b).dt = s.dt := rfl
@[simp] theorem writeFlagged_st (s : State) (x : Reg) (f b : Byte) : (s.writeFlagged x f b).st = s.st := rfl
@[simp] theorem writeFlagged_mem (s : State) (x : Reg) (f b : Byte) : (s.writeFlagged x f b).mem = s.mem := rfl
@[simp] theorem writeFlagged_key (s : State) (x : Reg) (f b : Byte) : (s.writeFlagged x f b).key = s.key := rfl
@[simp] theorem writeFlagged_fb (s : State) (x : Reg) (f b : Byte) : (s.writeFlagged x f b).fb = s.fb := rfl
@[simp] theorem writeFlagged_drawPending (s : State) (x : Reg) (f b : Byte) : (s.writeFlagged x f b).drawPending = s.drawPending := rfl
@[simp] theorem writeFlagged_rngIndex (s : State) (x : Reg) (f b : Byte) : (s.writeFlagged x f b).rngIndex = s.rngIndex := rfl
@[simp] theorem writeFlagged_status (s : State) (x : Reg) (f b : Byte) : (s.writeFlagged x f b).status = s.status := rfl
@[simp] theorem writeFlagged_fault (s : State) (x : Reg) (f b : Byte) : (s.writeFlagged x f b).fault = s.fault := rfl
@[simp] theorem writeFlagged_decodeErr (s : State) (x : Reg) (f b : Byte) : (s.writeFlagged x f b).decodeErr = s.decodeErr := rfl
@[simp] theorem writeFlagged_schedule (s : State) (x : Reg) (f b : Byte) : (s.writeFlagged x f b).schedule = s.schedule := rfl

/-! ### raising a fault -/

@[simp] theorem raise_v (s : State) (k : FaultKind) (n : Nat) : (raise k n s).v = s.v := rfl
@[simp] theorem raise_index (s : State) (k : FaultKind) (n : Nat) : (raise k n s).index = s.index := rfl
@[simp] theorem raise_pc (s : State) (k : FaultKind) (n : Nat) : (raise k n s).pc = s.pc := rfl
@[simp] theorem raise_sp (s : State) (k : FaultKind) (n : Nat) : (raise k n s).sp = s.sp := rfl
@[simp] theorem raise_stack (s : State) (k : FaultKind) (n : Nat) : (raise k n s).stack = s.stack := rfl
@[simp] theorem raise_dt (s : State) (k : FaultKind) (n : Nat) : (raise k n s).dt = s.dt := rfl
@[simp] theorem raise_st (s : State) (k : FaultKind) (n : Nat) : (raise k n s).st = s.st := rfl
@[simp] theorem raise_mem (s : State) (k : FaultKind) (n : Nat) : (raise k n s).mem = s.mem := rfl
@[simp] theorem raise_key (s : State) (k : FaultKind) (n : Nat) : (raise k n s).key = s.key := rfl
@[simp] theorem raise_fb (s : State) (k : FaultKind) (n : Nat) : (raise k n s).fb = s.fb := rfl
@[simp] theorem raise_drawPending (s : State) (k : FaultKind) (n : Nat) : (raise k n s).drawPending = s.drawPending := rfl
@[simp] theorem raise_rngIndex (s : State) (k : FaultKind) (n : Nat) : (raise k n s).rngIndex = s.rngIndex := rfl
@[simp] theorem raise_decodeErr (s : State) (k : FaultKind) (n : Nat) : (raise k n s).decodeErr = s.decodeErr := rfl
@[simp] theorem raise_schedule (s : State) (k : FaultKind) (n : Nat) : (raise k n s).schedule = s.schedule := rfl

/-! ### a tick -/

@[simp] theorem tickTimers_v (s : State) : (tickTimers s).v = s.v := rfl
@[simp] theorem tickTimers_index (s : State) : (tickTimers s).index = s.index := rfl
@[simp] theorem tickTimers_pc (s : State) : (tickTimers s).pc = s.pc := rfl
@[simp] theorem tickTimers_sp (s : State) : (tickTimers s).sp = s.sp := rfl
@[simp] theorem tickTimers_stack (s : State) : (tickTimers s).stack = s.stack := rfl
@[simp] theorem tickTimers_mem (s : State) : (tickTimers s).mem = s.mem := rfl
@[simp] theorem tickTimers_key (s : State) : (tickTimers s).key = s.key := rfl
@[simp] theorem tickTimers_fb (s : State) : (tickTimers s).fb = s.fb := rfl
@[simp] theorem tickTimers_drawPending (s : State) : (tickTimers s).drawPending = s.drawPending := rfl
@[simp] theorem tickTimers_rngIndex (s : State) : (tickTimers s).rngIndex = s.rngIndex := rfl
@[simp] theorem tickTimers_status (s : State) : (tickTimers s).status = s.status := rfl
@[simp] theorem tickTimers_fault (s : State) : (tickTimers s).fault = s.fault := rfl
@[simp] theorem tickTimers_decodeErr (s : State) : (tickTimers s).decodeErr = s.decodeErr := rfl
@[simp] theorem tickTimers_schedule (s : State) : (tickTimers s).schedule = s.schedule := rfl

/-! ### the fields the updates write -/

@[simp] theorem advance_pc (s : State) : s.advance.pc = s.pc + 2 := rfl
@[simp] theorem jump_pc (s : State) (t : Word) : (s.jump t).pc = t := rfl
@[simp] theorem skipIf_pc (s : State) (c : Bool) : (s.skipIf c).pc = if c then s.pc + 2 + 2 else s.pc + 2 := rfl
@[simp] theorem writeFlagged_pc (s : State) (x : Reg) (f b : Byte) : (s.writeFlagged x f b).pc = s.pc + 2 := rfl
@[simp] theorem raise_status (s : State) (k : FaultKind) (n : Nat) : (raise k n s).status = .faulted := rfl
@[simp] theorem raise_fault (s : State) (k : FaultKind) (n : Nat) : (raise k n s).fault = some ⟨k, n⟩ := rfl
@[simp] theorem tickTimers_dt (s : State) : (tickTimers s).dt = tickDown s.dt := rfl
@[simp] theorem tickTimers_st (s : State) : (tickTimers s).st = tickDown s.st := rfl

end Sys2Proof.Machine
end

