-- ==== Sys2Proof/Laws/Ops.lean ====
section
/-! SUPPORT. What each shared operation can do, once: the bounds check, the call stack, the key index check,
the choice of a key, the skip, and an unrecognised word. -/

namespace Sys2Proof.Machine

/-- A transfer either lies in memory and is done, or raises `MemBounds` (20_memory.md R43). -/
theorem withinMemory_cases (a : Nat) (s d : State) :
    (a ≤ 0xFFF ∧ withinMemory a s d = d) ∨ (a > 0xFFF ∧ withinMemory a s d = raise .memBounds a s) := by
  by_cases h : a > 0xFFF
  · exact .inr ⟨h, by simp only [withinMemory, if_pos h]⟩
  · exact .inl ⟨by omega, by simp only [withinMemory, if_neg h]⟩

theorem withinMemory_in {a : Nat} (h : a ≤ 0xFFF) (s d : State) : withinMemory a s d = d := by
  rw [withinMemory, if_neg (by omega)]

theorem withinMemory_out {a : Nat} (h : a > 0xFFF) (s d : State) : withinMemory a s d = raise .memBounds a s := by
  rw [withinMemory, if_pos h]

/-- A key index either is one of the sixteen, or raises `KeyIndex` (44_keys_timers_random.md R150). -/
theorem withKeyIndex_cases (k : Nat) (s d : State) :
    (k ≤ 15 ∧ withKeyIndex k s d = d) ∨ (k > 15 ∧ withKeyIndex k s d = raise .keyIndex k s) := by
  by_cases h : k > 15
  · exact .inr ⟨h, by simp only [withKeyIndex, if_pos h]⟩
  · exact .inl ⟨by omega, by simp only [withKeyIndex, if_neg h]⟩

/-- A push either finds a free slot or raises `StackOverflow(16)` (40_control.md R82). -/
theorem push_cases (w t : Word) (s : State) :
    (∃ h : s.sp.val < 16, push w t s =
      { s with sp := ⟨s.sp.val + 1, by omega⟩, stack := s.stack.set s.sp.val w h, pc := t }) ∨
    (s.sp.val = 16 ∧ push w t s = raise .stackOverflow 16 s) := by
  by_cases h : s.sp.val < 16
  · exact .inl ⟨h, by rw [push, dif_pos h]⟩
  · have h16 : s.sp.val = 16 := by omega
    exact .inr ⟨h16, by rw [push, dif_neg h, h16]⟩

/-- A pop either takes the top slot or raises `StackUnderflow(0)` (40_control.md R80). -/
theorem pop_cases (s : State) :
    (1 ≤ s.sp.val ∧ pop s = { s with pc := s.stackSlot s.sp.val, sp := ⟨s.sp.val - 1, by omega⟩ }) ∨
    (s.sp.val = 0 ∧ pop s = raise .stackUnderflow 0 s) := by
  by_cases h : s.sp.val = 0
  · exact .inr ⟨h, by rw [pop, if_pos h]⟩
  · exact .inl ⟨by omega, by rw [pop, if_neg h]⟩

/-- The slot just pushed reads back; the slots below it are as before (10_state.md R15). -/
theorem stackSlot_set (s : State) (w : Word) (k n : Nat) (h : n < 16) (hk : 1 ≤ k) :
    State.stackSlot { s with stack := s.stack.set n w h } k = if k = n + 1 then w else s.stackSlot k := by
  by_cases hk16 : k - 1 < 16
  · by_cases e : k = n + 1
    · subst e
      simp [State.stackSlot, Vector.getD, h]
    · simp [State.stackSlot, Vector.getD, hk16, e, show n ≠ k - 1 by omega]
  · simp [State.stackSlot, Vector.getD, hk16, show k ≠ n + 1 by omega]

/-- The key chosen is pressed, and no lower one is (R153, D8). -/
theorem keyPick_some {key : Vector Bool 16} {k : Nat} (h : keyPick key = some k) :
    k < 16 ∧ key.getD k false = true ∧ ∀ j < k, key.getD j false = false := by
  rw [keyPick, List.find?_range_eq_some] at h
  exact ⟨by simpa using h.2.1, h.1, fun j hj => by simpa using h.2.2 j hj⟩

/-- No key is chosen exactly when none is pressed (R153). -/
theorem keyPick_none {key : Vector Bool 16} :
    keyPick key = none ↔ ∀ k < 16, key.getD k false = false := by
  simp [keyPick, List.find?_eq_none]

/-- What a word that no row matches can do under the model's own policies: the near-miss words are refused, any
other is a no-op (R67, R68). -/
theorem unrecognised_cases (op : Word) (s : State) :
    (isNearMiss op = true ∧
      unrecognised Config.unknownOpcodePolicy Config.nearMissPolicy op s = .refused (.nearMissWord op)) ∨
    (isNearMiss op = false ∧
      unrecognised Config.unknownOpcodePolicy Config.nearMissPolicy op s =
        .next { s with decodeErr := true, pc := s.pc + 2 }) := by
  unfold unrecognised Config.unknownOpcodePolicy Config.nearMissPolicy
  cases isNearMiss op
  · exact .inr ⟨rfl, rfl⟩
  · exact .inl ⟨rfl, rfl⟩

end Sys2Proof.Machine
end

