-- ==== Sys2Proof/Laws/Registers.lean ====
section
/-! SUPPORT. What the register operations do (10_state.md R11; 41_alu.md R111). -/

namespace Sys2Proof.Machine

@[simp] theorem reg_setReg_same (s : State) (r : Reg) (b : Byte) : (s.setReg r b).reg r = b := by
  simp [State.reg, State.setReg]

theorem reg_setReg_ne (s : State) (r q : Reg) (b : Byte) (h : q ≠ r) : (s.setReg r b).reg q = s.reg q := by
  have hn : r.toNat ≠ q.toNat := fun e => h (BitVec.eq_of_toNat_eq e.symm)
  simp [State.reg, State.setReg, Vector.getElem_set_ne, hn]

theorem reg_setReg (s : State) (r q : Reg) (b : Byte) :
    (s.setReg r b).reg q = if q = r then b else s.reg q := by
  split
  · rename_i h; rw [h, reg_setReg_same]
  · rename_i h; exact reg_setReg_ne s r q b h

/-- A register's value depends on the register file alone. -/
theorem reg_congr {s t : State} (h : t.v = s.v) (r : Reg) : t.reg r = s.reg r := by
  simp [State.reg, h]

@[simp] theorem reg_advance (s : State) (r : Reg) : s.advance.reg r = s.reg r := rfl
@[simp] theorem reg_jump (s : State) (t : Word) (r : Reg) : (s.jump t).reg r = s.reg r := rfl
@[simp] theorem reg_skipIf (s : State) (c : Bool) (r : Reg) : (s.skipIf c).reg r = s.reg r := rfl
@[simp] theorem reg_raise (s : State) (k : FaultKind) (n : Nat) (r : Reg) : (raise k n s).reg r = s.reg r := rfl

/-- A register loaded from a list takes its byte; one past the list's end keeps its value. -/
theorem reg_setRegs (s : State) (bs : List Byte) (r : Reg) :
    (s.setRegs bs).reg r = bs.getD r.toNat (s.reg r) := by
  simp [State.reg, State.setRegs]

/-- After a flag write and a result write, the destination holds the result, also when it is `vF`; `vF` holds
the flag otherwise; every other register is as before (R111). -/
theorem reg_writeFlagged (s : State) (x q : Reg) (f b : Byte) :
    (s.writeFlagged x f b).reg q = if q = x then b else if q = vF then f else s.reg q := by
  rw [State.writeFlagged, reg_advance, reg_setReg, reg_setReg]

@[simp] theorem length_regsUpTo (s : State) (x : Reg) : (s.regsUpTo x).length = x.toNat + 1 := by
  have := x.isLt
  simp [State.regsUpTo]
  omega

/-- The bytes of a register dump are the registers in order (R124). -/
theorem getElem_regsUpTo (s : State) (x r : Reg) (h : r.toNat < (s.regsUpTo x).length) :
    (s.regsUpTo x)[r.toNat] = s.reg r := by
  simp [State.regsUpTo, State.reg]

end Sys2Proof.Machine
end

