-- ==== Sys2Proof/Laws/Exec.lean ====
section
/-! SUPPORT. What an instruction can do, said once: the fault of R170's table, or one of a few kinds of effect.
Claims over all instructions split on these kinds instead of unfolding the thirty-four meanings. -/

namespace Sys2Proof.Machine

/-- The registers of `v` that the instruction may not write are those of `s`. -/
def KeepsOtherRegs (i : Instr) (s : State) (v : Vector Byte 16) : Prop :=
  ∀ r, mayWriteReg i r = false → State.reg { s with v := v } r = s.reg r

/-- The kinds of effect an instruction that raises no fault has, by what it writes. -/
inductive Effect (i : Instr) (s : State) : State → Prop where
  | wait (x : Reg) (hi : i = .ldVxK x) (hk : keyPick s.key = none) : Effect i s { s with status := .awaitingKey }
  | clear (hi : i = .cls) (fb : FrameBuffer) : Effect i s { s with fb := fb }.advance
  | ret (hi : i = .ret) (h : 1 ≤ s.sp.val) :
      Effect i s { s with pc := s.stackSlot s.sp.val, sp := ⟨s.sp.val - 1, by omega⟩ }
  | call (nnn : Addr12) (hi : i = .call nnn) (h : s.sp.val < 16) :
      Effect i s { s with sp := ⟨s.sp.val + 1, by omega⟩, stack := s.stack.set s.sp.val s.npc h, pc := zextAddr nnn }
  | jump (h : transfersControl i = true) (t : Word) : Effect i s (s.jump t)
  | skip (h : transfersControl i = true) (c : Bool) : Effect i s (s.skipIf c)
  | regs (v : Vector Byte 16) (h : KeepsOtherRegs i s v) (hi : ∀ x, i ≠ .ldVxK x) : Effect i s { s with v := v }.advance
  | key (x : Reg) (hi : i = .ldVxK x) (hk : keyPick s.key ≠ none) (v : Vector Byte 16) (h : KeepsOtherRegs i s v) :
      Effect i s { s with v := v, status := .running }.advance
  | rnd (x : Reg) (kk : Byte) (hi : i = .rndVxKk x kk) (v : Vector Byte 16) (h : KeepsOtherRegs i s v) (n : Nat)
      (hn : n = (s.rngIndex + 1) % Config.rngTableSize) : Effect i s { s with v := v, rngIndex := n }.advance
  | index (a : Word) (hi : (∃ nnn, i = .ldINnn nnn) ∨ (∃ x, i = .addIVx x) ∨ (∃ x, i = .ldFVx x)) :
      Effect i s { s with index := a }.advance
  | store (a : Nat) (bs : List Byte) (hi : (∃ x, i = .ldBVx x) ∨ (∃ x, i = .ldMemVx x))
      (h : a + bs.length ≤ 0x1000) : Effect i s { s with mem := s.mem.writeBytes a bs }.advance
  | draw (x y : Reg) (n : Nibble) (hi : i = .drwVxVyN x y n) (v : Vector Byte 16) (h : KeepsOtherRegs i s v)
      (fb : FrameBuffer) : Effect i s { s with v := v, fb := fb, drawPending := true }.advance
  | delay (x : Reg) (b : Byte) (hi : i = .ldDtVx x) : Effect i s { s with dt := b }.advance
  | sound (x : Reg) (b : Byte) (hi : i = .ldStVx x) : Effect i s { s with st := b }.advance

/-- A meaning's answer: the tabled fault, or no tabled fault and an effect of one of the kinds. -/
def Answers (i : Instr) (s t : State) : Prop :=
  (∃ f, tabledFault i s = some f ∧ t = raise f.kind f.info s) ∨ (tabledFault i s = none ∧ Effect i s t)

theorem keepsOtherRegs_setReg (i : Instr) (s : State) (x : Reg) (b : Byte)
    (hi : ∀ r, mayWriteReg i r = false → r ≠ x) : KeepsOtherRegs i s (s.setReg x b).v :=
  fun r h => reg_setReg_ne s x r b (hi r h)

theorem keepsOtherRegs_flagged (i : Instr) (s : State) (x : Reg) (f b : Byte)
    (hi : ∀ r, mayWriteReg i r = false → r ≠ x ∧ r ≠ vF) : KeepsOtherRegs i s (s.writeFlagged x f b).v := by
  intro r h
  refine (reg_writeFlagged s x r f b).trans ?_
  rw [if_neg (hi r h).1, if_neg (hi r h).2]

/-- A bounds check over one data range answers as `Answers` says. -/
theorem answers_withinMemory {i : Instr} {s d : State} {a : Nat}
    (hf : tabledFault i s = if a > 0xFFF then some { kind := .memBounds, info := a } else none)
    (hd : a ≤ 0xFFF → Effect i s d) : Answers i s (withinMemory a s d) := by
  rcases withinMemory_cases a s d with ⟨h, e⟩ | ⟨h, e⟩
  · rw [e]; exact .inr ⟨by rw [hf, if_neg (by omega)], hd h⟩
  · rw [e]; exact .inl ⟨_, by rw [hf, if_pos h], rfl⟩

theorem answers_withKeyIndex {i : Instr} {s d : State} {k : Nat}
    (hf : tabledFault i s = if k > 15 then some { kind := .keyIndex, info := k } else none)
    (hd : Effect i s d) : Answers i s (withKeyIndex k s d) := by
  rcases withKeyIndex_cases k s d with ⟨h, e⟩ | ⟨h, e⟩
  · rw [e]; exact .inr ⟨by rw [hf, if_neg (by omega)], hd⟩
  · rw [e]; exact .inl ⟨_, by rw [hf, if_pos h], rfl⟩

theorem answers_draw (x y : Reg) (n : Nibble) (s : State) :
    ∃ t, execDrwVxVyN x y n s = .next t ∧ Answers (.drwVxVyN x y n) s t := by
  have hd : Effect (.drwVxVyN x y n) s (drawn x y n s) :=
    .draw x y n rfl (s.setReg vF _).v (keepsOtherRegs_setReg _ s vF _ fun r h => by simpa [mayWriteReg, vF] using h) _
  rw [execDrwVxVyN]
  split
  · rename_i h0
    exact ⟨_, rfl, .inr ⟨by rw [tabledFault, if_neg (by omega)], hd⟩⟩
  · rename_i h0
    refine ⟨_, rfl, answers_withinMemory ?_ fun _ => hd⟩
    have e : s.dataAddr (n.toNat - 1) = s.index.toNat + n.toNat - 1 := by
      simp only [State.dataAddr]; omega
    rw [e, tabledFault]
    by_cases h : s.index.toNat + n.toNat - 1 > 0xFFF
    · rw [if_pos h, if_pos ⟨by omega, h⟩]
    · rw [if_neg h, if_neg fun c => h c.2]

/-- Every instruction answers a next state, of the kinds `Answers` lists. -/
theorem exec_answers (i : Instr) (s : State) : ∃ t, exec i s = .next t ∧ Answers i s t := by
  have one : ∀ (x : Reg) (b : Byte), (∀ r, mayWriteReg i r = (r == x)) → KeepsOtherRegs i s (s.setReg x b).v :=
    fun x b h => keepsOtherRegs_setReg i s x b fun r hr => by simpa [h] using hr
  have two : ∀ (x : Reg) (f b : Byte), (∀ r, mayWriteReg i r = (r == x || r == 15)) →
      KeepsOtherRegs i s (s.writeFlagged x f b).v :=
    fun x f b h => keepsOtherRegs_flagged i s x f b fun r hr => by simpa [h, vF] using hr
  cases i with
  | cls => exact ⟨_, rfl, .inr ⟨rfl, .clear rfl _⟩⟩
  | ret =>
    refine ⟨_, rfl, ?_⟩
    rcases pop_cases s with ⟨h, e⟩ | ⟨h, e⟩
    · rw [e]; exact .inr ⟨by rw [tabledFault, if_neg (by omega)], .ret rfl h⟩
    · rw [e]; exact .inl ⟨_, by rw [tabledFault, if_pos h], rfl⟩
  | call nnn =>
    refine ⟨_, rfl, ?_⟩
    rcases push_cases s.npc (zextAddr nnn) s with ⟨h, e⟩ | ⟨h, e⟩
    · rw [e]; exact .inr ⟨by rw [tabledFault, if_neg (by omega)], .call nnn rfl h⟩
    · rw [e]; exact .inl ⟨_, by rw [tabledFault, if_pos h], rfl⟩
  | jp nnn => exact ⟨_, rfl, .inr ⟨rfl, .jump rfl _⟩⟩
  | jpV0Nnn nnn => exact ⟨_, rfl, .inr ⟨rfl, .jump rfl _⟩⟩
  | seVxKk x kk => exact ⟨_, rfl, .inr ⟨rfl, .skip rfl _⟩⟩
  | sneVxKk x kk => exact ⟨_, rfl, .inr ⟨rfl, .skip rfl _⟩⟩
  | seVxVy x y => exact ⟨_, rfl, .inr ⟨rfl, .skip rfl _⟩⟩
  | sneVxVy x y => exact ⟨_, rfl, .inr ⟨rfl, .skip rfl _⟩⟩
  | ldVxKk x kk => exact ⟨_, rfl, .inr ⟨rfl, .regs _ (one x _ fun _ => rfl) nofun⟩⟩
  | addVxKk x kk => exact ⟨_, rfl, .inr ⟨rfl, .regs _ (one x _ fun _ => rfl) nofun⟩⟩
  | ldVxVy x y => exact ⟨_, rfl, .inr ⟨rfl, .regs _ (one x _ fun _ => rfl) nofun⟩⟩
  | orVxVy x y => exact ⟨_, rfl, .inr ⟨rfl, .regs _ (one x _ fun _ => rfl) nofun⟩⟩
  | andVxVy x y => exact ⟨_, rfl, .inr ⟨rfl, .regs _ (one x _ fun _ => rfl) nofun⟩⟩
  | xorVxVy x y => exact ⟨_, rfl, .inr ⟨rfl, .regs _ (one x _ fun _ => rfl) nofun⟩⟩
  | addVxVy x y => exact ⟨_, rfl, .inr ⟨rfl, .regs _ (two x _ _ fun _ => rfl) nofun⟩⟩
  | subVxVy x y => exact ⟨_, rfl, .inr ⟨rfl, .regs _ (two x _ _ fun _ => rfl) nofun⟩⟩
  | shrVx x y => exact ⟨_, rfl, .inr ⟨rfl, .regs _ (two x _ _ fun _ => rfl) nofun⟩⟩
  | subnVxVy x y => exact ⟨_, rfl, .inr ⟨rfl, .regs _ (two x _ _ fun _ => rfl) nofun⟩⟩
  | shlVx x y => exact ⟨_, rfl, .inr ⟨rfl, .regs _ (two x _ _ fun _ => rfl) nofun⟩⟩
  | ldINnn nnn => exact ⟨_, rfl, .inr ⟨rfl, .index _ (.inl ⟨_, rfl⟩)⟩⟩
  | addIVx x => exact ⟨_, rfl, .inr ⟨rfl, .index _ (.inr (.inl ⟨_, rfl⟩))⟩⟩
  | ldFVx x => exact ⟨_, rfl, .inr ⟨rfl, .index _ (.inr (.inr ⟨_, rfl⟩))⟩⟩
  | rndVxKk x kk => exact ⟨_, rfl, .inr ⟨rfl, .rnd x kk rfl _ (one x _ fun _ => rfl) _ rfl⟩⟩
  | drwVxVyN x y n => exact answers_draw x y n s
  | skpVx x => exact ⟨_, rfl, answers_withKeyIndex rfl (.skip rfl _)⟩
  | sknpVx x => exact ⟨_, rfl, answers_withKeyIndex rfl (.skip rfl _)⟩
  | ldVxDt x => exact ⟨_, rfl, .inr ⟨rfl, .regs _ (one x _ fun _ => rfl) nofun⟩⟩
  | ldVxK x =>
    show ∃ t, execLdVxK x s = .next t ∧ _
    rw [execLdVxK]
    cases hk : keyPick s.key with
    | none => exact ⟨_, rfl, .inr ⟨rfl, .wait x rfl hk⟩⟩
    | some k => exact ⟨_, rfl, .inr ⟨rfl, .key x rfl (by simp [hk]) _ (one x _ fun _ => rfl)⟩⟩
  | ldDtVx x => exact ⟨_, rfl, .inr ⟨rfl, .delay x _ rfl⟩⟩
  | ldStVx x => exact ⟨_, rfl, .inr ⟨rfl, .sound x _ rfl⟩⟩
  | ldBVx x =>
    refine ⟨_, rfl, answers_withinMemory rfl fun h => .store _ _ (.inl ⟨_, rfl⟩) ?_⟩
    simp only [State.dataAddr, bcdDigits, List.length_cons, List.length_nil] at *
    omega
  | ldMemVx x =>
    refine ⟨_, rfl, answers_withinMemory rfl fun h => .store _ _ (.inr ⟨_, rfl⟩) ?_⟩
    simp only [State.dataAddr, length_regsUpTo] at *
    omega
  | ldVxMem x =>
    refine ⟨_, rfl, answers_withinMemory rfl fun h => .regs _ (fun r hr => ?_) nofun⟩
    have hr : x.toNat < r.toNat := by simpa [mayWriteReg] using hr
    exact (reg_setRegs s _ r).trans (List.getD_eq_default _ _ (by simp; omega))

/-- The inversion lemma: a next state of `exec` is the tabled fault or an effect of one of the kinds. -/
theorem answers_of_exec {i : Instr} {s t : State} (h : exec i s = .next t) : Answers i s t := by
  obtain ⟨t', e, ha⟩ := exec_answers i s
  rw [e] at h
  cases h
  exact ha

end Sys2Proof.Machine
end

