-- ==== Sys2Proof/Laws/PerInstr.lean ====
section
/-! SUPPORT. Statements about every instruction as syntax, one lemma per constructor. RowFields: the word the
encoder builds selects a row of R65's table, and that row reads the instruction's own operands back. -/

namespace Sys2Proof.Laws.RowFields

/-- The instruction's word selects a row of the opcode table whose fields are the instruction's operands
(30_encoding.md R63, R65). -/
def Statement (i : Instr) : Prop :=
  ∃ r ∈ opcodeRows, r.selects (encode i) = true ∧ r.build (encode i) = i

theorem cls : Statement .cls :=
  ⟨opcodeRows[0], List.getElem_mem _, by decide, by decide⟩

theorem ret : Statement .ret :=
  ⟨opcodeRows[1], List.getElem_mem _, by decide, by decide⟩

theorem jp (nnn : Addr12) : Statement (.jp nnn) := by
  refine ⟨opcodeRows[2], List.getElem_mem _, (selects_iff _ 0x1 0x0 0x0 0x0 0xF 0x0 0x0 0x0 _).mpr ?_, ?_⟩ <;>
    simp [opcodeRows, opcodeRows0to7, opcodeRows8, opcodeRows9toE, opcodeRowsF, encode]

theorem call (nnn : Addr12) : Statement (.call nnn) := by
  refine ⟨opcodeRows[3], List.getElem_mem _, (selects_iff _ 0x2 0x0 0x0 0x0 0xF 0x0 0x0 0x0 _).mpr ?_, ?_⟩ <;>
    simp [opcodeRows, opcodeRows0to7, opcodeRows8, opcodeRows9toE, opcodeRowsF, encode]

theorem seVxKk (x : Reg) (kk : Byte) : Statement (.seVxKk x kk) := by
  refine ⟨opcodeRows[4], List.getElem_mem _, (selects_iff _ 0x3 0x0 0x0 0x0 0xF 0x0 0x0 0x0 _).mpr ?_, ?_⟩ <;>
    simp [opcodeRows, opcodeRows0to7, opcodeRows8, opcodeRows9toE, opcodeRowsF, encode]

theorem sneVxKk (x : Reg) (kk : Byte) : Statement (.sneVxKk x kk) := by
  refine ⟨opcodeRows[5], List.getElem_mem _, (selects_iff _ 0x4 0x0 0x0 0x0 0xF 0x0 0x0 0x0 _).mpr ?_, ?_⟩ <;>
    simp [opcodeRows, opcodeRows0to7, opcodeRows8, opcodeRows9toE, opcodeRowsF, encode]

theorem seVxVy (x y : Reg) : Statement (.seVxVy x y) := by
  refine ⟨opcodeRows[6], List.getElem_mem _, (selects_iff _ 0x5 0x0 0x0 0x0 0xF 0x0 0x0 0xF _).mpr ?_, ?_⟩ <;>
    simp [opcodeRows, opcodeRows0to7, opcodeRows8, opcodeRows9toE, opcodeRowsF, encode]

theorem ldVxKk (x : Reg) (kk : Byte) : Statement (.ldVxKk x kk) := by
  refine ⟨opcodeRows[7], List.getElem_mem _, (selects_iff _ 0x6 0x0 0x0 0x0 0xF 0x0 0x0 0x0 _).mpr ?_, ?_⟩ <;>
    simp [opcodeRows, opcodeRows0to7, opcodeRows8, opcodeRows9toE, opcodeRowsF, encode]

theorem addVxKk (x : Reg) (kk : Byte) : Statement (.addVxKk x kk) := by
  refine ⟨opcodeRows[8], List.getElem_mem _, (selects_iff _ 0x7 0x0 0x0 0x0 0xF 0x0 0x0 0x0 _).mpr ?_, ?_⟩ <;>
    simp [opcodeRows, opcodeRows0to7, opcodeRows8, opcodeRows9toE, opcodeRowsF, encode]

theorem ldVxVy (x y : Reg) : Statement (.ldVxVy x y) := by
  refine ⟨opcodeRows[9], List.getElem_mem _, (selects_iff _ 0x8 0x0 0x0 0x0 0xF 0x0 0x0 0xF _).mpr ?_, ?_⟩ <;>
    simp [opcodeRows, opcodeRows0to7, opcodeRows8, opcodeRows9toE, opcodeRowsF, encode]

theorem orVxVy (x y : Reg) : Statement (.orVxVy x y) := by
  refine ⟨opcodeRows[10], List.getElem_mem _, (selects_iff _ 0x8 0x0 0x0 0x1 0xF 0x0 0x0 0xF _).mpr ?_, ?_⟩ <;>
    simp [opcodeRows, opcodeRows0to7, opcodeRows8, opcodeRows9toE, opcodeRowsF, encode]

theorem andVxVy (x y : Reg) : Statement (.andVxVy x y) := by
  refine ⟨opcodeRows[11], List.getElem_mem _, (selects_iff _ 0x8 0x0 0x0 0x2 0xF 0x0 0x0 0xF _).mpr ?_, ?_⟩ <;>
    simp [opcodeRows, opcodeRows0to7, opcodeRows8, opcodeRows9toE, opcodeRowsF, encode]

theorem xorVxVy (x y : Reg) : Statement (.xorVxVy x y) := by
  refine ⟨opcodeRows[12], List.getElem_mem _, (selects_iff _ 0x8 0x0 0x0 0x3 0xF 0x0 0x0 0xF _).mpr ?_, ?_⟩ <;>
    simp [opcodeRows, opcodeRows0to7, opcodeRows8, opcodeRows9toE, opcodeRowsF, encode]

theorem addVxVy (x y : Reg) : Statement (.addVxVy x y) := by
  refine ⟨opcodeRows[13], List.getElem_mem _, (selects_iff _ 0x8 0x0 0x0 0x4 0xF 0x0 0x0 0xF _).mpr ?_, ?_⟩ <;>
    simp [opcodeRows, opcodeRows0to7, opcodeRows8, opcodeRows9toE, opcodeRowsF, encode]

theorem subVxVy (x y : Reg) : Statement (.subVxVy x y) := by
  refine ⟨opcodeRows[14], List.getElem_mem _, (selects_iff _ 0x8 0x0 0x0 0x5 0xF 0x0 0x0 0xF _).mpr ?_, ?_⟩ <;>
    simp [opcodeRows, opcodeRows0to7, opcodeRows8, opcodeRows9toE, opcodeRowsF, encode]

theorem shrVx (x y : Reg) : Statement (.shrVx x y) := by
  refine ⟨opcodeRows[15], List.getElem_mem _, (selects_iff _ 0x8 0x0 0x0 0x6 0xF 0x0 0x0 0xF _).mpr ?_, ?_⟩ <;>
    simp [opcodeRows, opcodeRows0to7, opcodeRows8, opcodeRows9toE, opcodeRowsF, encode]

theorem subnVxVy (x y : Reg) : Statement (.subnVxVy x y) := by
  refine ⟨opcodeRows[16], List.getElem_mem _, (selects_iff _ 0x8 0x0 0x0 0x7 0xF 0x0 0x0 0xF _).mpr ?_, ?_⟩ <;>
    simp [opcodeRows, opcodeRows0to7, opcodeRows8, opcodeRows9toE, opcodeRowsF, encode]

theorem shlVx (x y : Reg) : Statement (.shlVx x y) := by
  refine ⟨opcodeRows[17], List.getElem_mem _, (selects_iff _ 0x8 0x0 0x0 0xE 0xF 0x0 0x0 0xF _).mpr ?_, ?_⟩ <;>
    simp [opcodeRows, opcodeRows0to7, opcodeRows8, opcodeRows9toE, opcodeRowsF, encode]

theorem sneVxVy (x y : Reg) : Statement (.sneVxVy x y) := by
  refine ⟨opcodeRows[18], List.getElem_mem _, (selects_iff _ 0x9 0x0 0x0 0x0 0xF 0x0 0x0 0xF _).mpr ?_, ?_⟩ <;>
    simp [opcodeRows, opcodeRows0to7, opcodeRows8, opcodeRows9toE, opcodeRowsF, encode]

theorem ldINnn (nnn : Addr12) : Statement (.ldINnn nnn) := by
  refine ⟨opcodeRows[19], List.getElem_mem _, (selects_iff _ 0xA 0x0 0x0 0x0 0xF 0x0 0x0 0x0 _).mpr ?_, ?_⟩ <;>
    simp [opcodeRows, opcodeRows0to7, opcodeRows8, opcodeRows9toE, opcodeRowsF, encode]

theorem jpV0Nnn (nnn : Addr12) : Statement (.jpV0Nnn nnn) := by
  refine ⟨opcodeRows[20], List.getElem_mem _, (selects_iff _ 0xB 0x0 0x0 0x0 0xF 0x0 0x0 0x0 _).mpr ?_, ?_⟩ <;>
    simp [opcodeRows, opcodeRows0to7, opcodeRows8, opcodeRows9toE, opcodeRowsF, encode]

theorem rndVxKk (x : Reg) (kk : Byte) : Statement (.rndVxKk x kk) := by
  refine ⟨opcodeRows[21], List.getElem_mem _, (selects_iff _ 0xC 0x0 0x0 0x0 0xF 0x0 0x0 0x0 _).mpr ?_, ?_⟩ <;>
    simp [opcodeRows, opcodeRows0to7, opcodeRows8, opcodeRows9toE, opcodeRowsF, encode]

theorem drwVxVyN (x y : Reg) (n : Nibble) : Statement (.drwVxVyN x y n) := by
  refine ⟨opcodeRows[22], List.getElem_mem _, (selects_iff _ 0xD 0x0 0x0 0x0 0xF 0x0 0x0 0x0 _).mpr ?_, ?_⟩ <;>
    simp [opcodeRows, opcodeRows0to7, opcodeRows8, opcodeRows9toE, opcodeRowsF, encode]

theorem skpVx (x : Reg) : Statement (.skpVx x) := by
  refine ⟨opcodeRows[23], List.getElem_mem _, (selects_iff _ 0xE 0x0 0x9 0xE 0xF 0x0 0xF 0xF _).mpr ?_, ?_⟩ <;>
    simp [opcodeRows, opcodeRows0to7, opcodeRows8, opcodeRows9toE, opcodeRowsF, encode]

theorem sknpVx (x : Reg) : Statement (.sknpVx x) := by
  refine ⟨opcodeRows[24], List.getElem_mem _, (selects_iff _ 0xE 0x0 0xA 0x1 0xF 0x0 0xF 0xF _).mpr ?_, ?_⟩ <;>
    simp [opcodeRows, opcodeRows0to7, opcodeRows8, opcodeRows9toE, opcodeRowsF, encode]

theorem ldVxDt (x : Reg) : Statement (.ldVxDt x) := by
  refine ⟨opcodeRows[25], List.getElem_mem _, (selects_iff _ 0xF 0x0 0x0 0x7 0xF 0x0 0xF 0xF _).mpr ?_, ?_⟩ <;>
    simp [opcodeRows, opcodeRows0to7, opcodeRows8, opcodeRows9toE, opcodeRowsF, encode]

theorem ldVxK (x : Reg) : Statement (.ldVxK x) := by
  refine ⟨opcodeRows[26], List.getElem_mem _, (selects_iff _ 0xF 0x0 0x0 0xA 0xF 0x0 0xF 0xF _).mpr ?_, ?_⟩ <;>
    simp [opcodeRows, opcodeRows0to7, opcodeRows8, opcodeRows9toE, opcodeRowsF, encode]

theorem ldDtVx (x : Reg) : Statement (.ldDtVx x) := by
  refine ⟨opcodeRows[27], List.getElem_mem _, (selects_iff _ 0xF 0x0 0x1 0x5 0xF 0x0 0xF 0xF _).mpr ?_, ?_⟩ <;>
    simp [opcodeRows, opcodeRows0to7, opcodeRows8, opcodeRows9toE, opcodeRowsF, encode]

theorem ldStVx (x : Reg) : Statement (.ldStVx x) := by
  refine ⟨opcodeRows[28], List.getElem_mem _, (selects_iff _ 0xF 0x0 0x1 0x8 0xF 0x0 0xF 0xF _).mpr ?_, ?_⟩ <;>
    simp [opcodeRows, opcodeRows0to7, opcodeRows8, opcodeRows9toE, opcodeRowsF, encode]

theorem addIVx (x : Reg) : Statement (.addIVx x) := by
  refine ⟨opcodeRows[29], List.getElem_mem _, (selects_iff _ 0xF 0x0 0x1 0xE 0xF 0x0 0xF 0xF _).mpr ?_, ?_⟩ <;>
    simp [opcodeRows, opcodeRows0to7, opcodeRows8, opcodeRows9toE, opcodeRowsF, encode]

theorem ldFVx (x : Reg) : Statement (.ldFVx x) := by
  refine ⟨opcodeRows[30], List.getElem_mem _, (selects_iff _ 0xF 0x0 0x2 0x9 0xF 0x0 0xF 0xF _).mpr ?_, ?_⟩ <;>
    simp [opcodeRows, opcodeRows0to7, opcodeRows8, opcodeRows9toE, opcodeRowsF, encode]

theorem ldBVx (x : Reg) : Statement (.ldBVx x) := by
  refine ⟨opcodeRows[31], List.getElem_mem _, (selects_iff _ 0xF 0x0 0x3 0x3 0xF 0x0 0xF 0xF _).mpr ?_, ?_⟩ <;>
    simp [opcodeRows, opcodeRows0to7, opcodeRows8, opcodeRows9toE, opcodeRowsF, encode]

theorem ldMemVx (x : Reg) : Statement (.ldMemVx x) := by
  refine ⟨opcodeRows[32], List.getElem_mem _, (selects_iff _ 0xF 0x0 0x5 0x5 0xF 0x0 0xF 0xF _).mpr ?_, ?_⟩ <;>
    simp [opcodeRows, opcodeRows0to7, opcodeRows8, opcodeRows9toE, opcodeRowsF, encode]

theorem ldVxMem (x : Reg) : Statement (.ldVxMem x) := by
  refine ⟨opcodeRows[33], List.getElem_mem _, (selects_iff _ 0xF 0x0 0x6 0x5 0xF 0x0 0xF 0xF _).mpr ?_, ?_⟩ <;>
    simp [opcodeRows, opcodeRows0to7, opcodeRows8, opcodeRows9toE, opcodeRowsF, encode]

end Sys2Proof.Laws.RowFields
end

