-- ==== Sys2Proof/Laws/Step.lean ====
section
/-! SUPPORT. What a step can do, said once: whose turn it is, and the five cases of the core's own step
(30_encoding.md R71). -/

namespace Sys2Proof.Machine

/-- With nothing scheduled, the core steps. -/
theorem step_of_nil {s : State} (h : s.schedule = []) : step s = executeOneInstruction s := by
  simp only [step, stepMachine, h]

/-- With an action scheduled, its agent acts, and the action is used up. -/
theorem step_of_cons {s : State} {e : HostAction} {rest : List HostAction} (h : s.schedule = e :: rest) :
    step s = act e { s with schedule := rest } := by
  simp only [step, stepMachine, h]

/-- The core's step: nothing when faulted; a fetch fault; the decoded instruction; a near-miss word refused; or
an unrecognised word's no-op. -/
theorem executeOneInstruction_cases (s : State) :
    (s.status = .faulted ∧ executeOneInstruction s = .next s) ∨
    (s.status ≠ .faulted ∧ s.pc.toNat > 0xFFE ∧
      executeOneInstruction s = .next (raise .fetchBounds s.pc.toNat s)) ∨
    (s.status ≠ .faulted ∧ s.pc.toNat ≤ 0xFFE ∧ ∃ i, decodeWord (fetchWord s) = some i ∧
      executeOneInstruction s = exec i s) ∨
    (s.status ≠ .faulted ∧ s.pc.toNat ≤ 0xFFE ∧ decodeWord (fetchWord s) = none ∧
      isNearMiss (fetchWord s) = true ∧ executeOneInstruction s = .refused (.nearMissWord (fetchWord s))) ∨
    (s.status ≠ .faulted ∧ s.pc.toNat ≤ 0xFFE ∧ decodeWord (fetchWord s) = none ∧
      isNearMiss (fetchWord s) = false ∧ executeOneInstruction s = .next { s with decodeErr := true, pc := s.pc + 2 }) := by
  by_cases hf : s.status = .faulted
  · exact .inl ⟨hf, by rw [executeOneInstruction, if_pos hf]⟩
  · by_cases hp : s.pc.toNat > 0xFFE
    · exact .inr (.inl ⟨hf, hp, by rw [executeOneInstruction, if_neg hf, if_pos hp]⟩)
    · cases hd : decodeWord (fetchWord s) with
      | some i =>
        exact .inr (.inr (.inl ⟨hf, by omega, i, rfl, by rw [executeOneInstruction, if_neg hf, if_neg hp, hd]⟩))
      | none =>
        have e : executeOneInstruction s =
            unrecognised Config.unknownOpcodePolicy Config.nearMissPolicy (fetchWord s) s := by
          rw [executeOneInstruction, if_neg hf, if_neg hp, hd]
        rcases unrecognised_cases (fetchWord s) s with ⟨h, e'⟩ | ⟨h, e'⟩
        · exact .inr (.inr (.inr (.inl ⟨hf, by omega, rfl, h, e.trans e'⟩)))
        · exact .inr (.inr (.inr (.inr ⟨hf, by omega, rfl, h, e.trans e'⟩)))

end Sys2Proof.Machine
end

