-- ==== Sys2Proof/Tests/Slice0.lean ====
section
/-! SUPPORT. The model's own tests: what well-formedness and the decoder refuse, hand-written words, one step of
each instruction from the spec's vectors (95_test_vectors.md), and for every obligation with hypotheses a state
and operands that meet them. Expected results come from the spec's tables, not from the model. -/

namespace Sys2Proof.Tests

open Sys2Proof.Machine

/-! ### Well-formedness: ill-formed data that each check refuses -/

/-- R56: 3584 bytes fit, one more does not. -/
theorem test_wf_program : programFits (List.replicate 3584 0) = true ∧ programFits (List.replicate 3585 0) = false := by
  rw [programFits, programFits, List.length_replicate, List.length_replicate]
  decide

/-- R42: the default font is well formed; too few data bytes, or a base that runs past 0x1FF, is not. -/
theorem test_wf_font :
    Config.font.wellFormed = true ∧ Config.Font.wellFormed ⟨0, 5, Config.glyphs0to7⟩ = false ∧
    Config.Font.wellFormed ⟨0x1B0, 5, Config.font.data⟩ = true ∧
    Config.Font.wellFormed ⟨0x1B1, 5, Config.font.data⟩ = false := by decide

/-- R40: a listed address above 0xFFF, a byte equal to the unlisted one, and two cells out of order are no
canonical memory. -/
theorem test_wf_memory :
    Memory.wf [(0xFFF, 1)] ∧ ¬ Memory.wf [(0x1000, 1)] ∧ ¬ Memory.wf [(0x300, 0)] ∧
    ¬ Memory.wf [(0x301, 1), (0x300, 1)] := by decide

/-- Every instruction term is well formed: R66 allows every value of every field. -/
theorem test_wf_instr : (Instr.drwVxVyN 0xF 0xF 0x0).wellFormed = true := by decide

/-! ### Decoding: words written out from the patterns of R65 and the lists of T249 -/

theorem test_decode_0to4 :
    decodeWord 0x00E0 = some .cls ∧ decodeWord 0x00EE = some .ret ∧ decodeWord 0x1ABC = some (.jp 0xABC) ∧
    decodeWord 0x2ABC = some (.call 0xABC) ∧ decodeWord 0x3A02 = some (.seVxKk 0xA 0x02) ∧
    decodeWord 0x4A02 = some (.sneVxKk 0xA 0x02) := by decide

theorem test_decode_5to7 :
    decodeWord 0x5120 = some (.seVxVy 0x1 0x2) ∧ decodeWord 0x6A02 = some (.ldVxKk 0xA 0x02) ∧
    decodeWord 0x71FF = some (.addVxKk 0x1 0xFF) := by decide

theorem test_decode_8 :
    decodeWord 0x8AB0 = some (.ldVxVy 0xA 0xB) ∧ decodeWord 0x8AB1 = some (.orVxVy 0xA 0xB) ∧
    decodeWord 0x8AB2 = some (.andVxVy 0xA 0xB) ∧ decodeWord 0x8AB3 = some (.xorVxVy 0xA 0xB) ∧
    decodeWord 0x8AB4 = some (.addVxVy 0xA 0xB) ∧ decodeWord 0x8AB5 = some (.subVxVy 0xA 0xB) ∧
    decodeWord 0x8AB6 = some (.shrVx 0xA 0xB) ∧ decodeWord 0x8AB7 = some (.subnVxVy 0xA 0xB) ∧
    decodeWord 0x8ABE = some (.shlVx 0xA 0xB) := by decide

theorem test_decode_9toE :
    decodeWord 0x9120 = some (.sneVxVy 0x1 0x2) ∧ decodeWord 0xA300 = some (.ldINnn 0x300) ∧
    decodeWord 0xB2FF = some (.jpV0Nnn 0x2FF) ∧ decodeWord 0xC10F = some (.rndVxKk 0x1 0x0F) ∧
    decodeWord 0xD015 = some (.drwVxVyN 0x0 0x1 0x5) ∧ decodeWord 0xE19E = some (.skpVx 0x1) ∧
    decodeWord 0xE1A1 = some (.sknpVx 0x1) := by decide

theorem test_decode_F :
    decodeWord 0xF207 = some (.ldVxDt 0x2) ∧ decodeWord 0xF30A = some (.ldVxK 0x3) ∧
    decodeWord 0xF315 = some (.ldDtVx 0x3) ∧ decodeWord 0xF418 = some (.ldStVx 0x4) ∧
    decodeWord 0xF11E = some (.addIVx 0x1) ∧ decodeWord 0xF029 = some (.ldFVx 0x0) ∧
    decodeWord 0xF033 = some (.ldBVx 0x0) ∧ decodeWord 0xF255 = some (.ldMemVx 0x2) ∧
    decodeWord 0xFA65 = some (.ldVxMem 0xA) := by decide

/-- T249's unrecognised words. -/
theorem test_decode_unrecognised :
    (([0x0000, 0x00E1, 0x00FE, 0x0123, 0x01E0, 0x0FEE, 0x5AB1, 0x9ABF, 0x8AB8, 0x8ABF, 0xEA9D, 0xEAA2,
      0xFA00, 0xFA08, 0xFA16, 0xFA85] : List Word).all fun op => decodeWord op == none) = true := by decide

/-- Rejections by name: an unrecognised word, the near misses of R68, and too few bytes; after a word the rest
of the bytes is handed on. -/
theorem test_decode_names :
    decode [0x00, 0xE1] = .error (.unrecognised 0x00E1) ∧ decode [0x5A, 0xB1] = .error (.nearMiss 0x5AB1) ∧
    decode [0x01, 0xE0] = .error (.nearMiss 0x01E0) ∧ decode [0x00] = .error (.truncated 1) ∧
    decode [0x6A, 0x02, 0x60] = .ok (.ldVxKk 0xA 0x02, [0x60]) := by
  refine ⟨rfl, rfl, rfl, rfl, rfl⟩

/-- The opcode table's numbering: bit 0 is the least significant bit of the word. -/
theorem test_decode_table_word :
    decodeTableWord 16 0x8AB7 = some (.subnVxVy 0xA 0xB) ∧ decodeTableWord 16 0x0000 = none := by decide

/-! ### One step of each instruction -/

/-- The reset state, its random index a number that Lean can compute with. -/
def blank : State := { State.reset with rngIndex := 0 }

/-- `V[1]`, `V[2]` and `vF` as T241 sets them. -/
def alu (a b f : Byte) : State := ((blank.setReg 1 a).setReg 2 b).setReg 15 f

/-- `V[0]` and `I`. -/
def indexed (a : Byte) (i : Word) : State := { blank.setReg 0 a with index := i }

/-- Some bytes of memory from `I` up, and `V[0]`, `V[1]`. -/
def sprite (a b : Byte) (i : Word) (bytes : List Byte) : State :=
  { (blank.setReg 0 a).setReg 1 b with index := i, mem := Memory.writeBytes [] i.toNat bytes }

/-- The call stack with `n` addresses held, each 0x202. -/
def held (n : Fin 17) : State := { blank with sp := n, stack := Vector.replicate 16 0x202 }

/-- Two keys down. -/
def keysDown (a b : Fin 16) : State := { blank with key := (blank.key.set a true).set b true }

/-- The state after the word is placed at `pc` and one step is taken, if it is a next state. -/
def after (op : Nat) (s : State) : Option State :=
  match step (s.withFetchWord 16 op) with
  | .next t => some t
  | .fault _ => none
  | .refused _ => none

/-- T240. -/
theorem test_jp : (after 0x1ABC blank).map (·.pc) = some 0xABC := by decide
theorem test_jp_odd : (after 0x1201 blank).map (·.pc) = some 0x201 := by decide
theorem test_call : (after 0x2300 { held 15 with pc := 0x4F0 }).map
    (fun t => (t.pc, t.sp, t.stackSlot 16)) = some (0x300, 16, 0x4F2) := by decide
theorem test_call_full : (after 0x2300 { held 16 with pc := 0x4F0 }).map
    (fun t => (t.pc, t.sp, t.fault)) = some (0x4F0, 16, some ⟨.stackOverflow, 16⟩) := by decide
theorem test_ret : (after 0x00EE { held 1 with pc := 0x300 }).map (fun t => (t.pc, t.sp)) = some (0x202, 0) := by decide
theorem test_ret_empty : (after 0x00EE { held 0 with pc := 0x300 }).map
    (fun t => (t.pc, t.fault)) = some (0x300, some ⟨.stackUnderflow, 0⟩) := by decide
theorem test_se_imm : (after 0x3A02 (blank.setReg 10 2)).map (·.pc) = some 0x204 := by decide
theorem test_se_imm_not : (after 0x3A02 (blank.setReg 10 3)).map (·.pc) = some 0x202 := by decide
theorem test_sne_imm : (after 0x4A02 (blank.setReg 10 3)).map (·.pc) = some 0x204 := by decide
theorem test_sne_imm_not : (after 0x4A02 (blank.setReg 10 2)).map (·.pc) = some 0x202 := by decide
theorem test_se_reg : (after 0x5120 (alu 7 7 0)).map (·.pc) = some 0x204 := by decide
theorem test_se_reg_not : (after 0x5120 (alu 7 8 0)).map (·.pc) = some 0x202 := by decide
theorem test_sne_reg : (after 0x9120 (alu 7 8 0)).map (·.pc) = some 0x204 := by decide
theorem test_sne_reg_not : (after 0x9120 (alu 7 7 0)).map (·.pc) = some 0x202 := by decide
theorem test_jp_v0 : (after 0xBFFF (blank.setReg 0 0xFF)).map (·.pc) = some 0x10FE := by decide
theorem test_jp_v0_not_vx : (after 0xB2FF ((blank.setReg 0 1).setReg 2 0x55)).map (·.pc) = some 0x300 := by decide

/-- `V[1]`, `vF` and `pc`, as T241 and T242 list them. -/
def aluResult (t : State) : Byte × Byte × Word := (t.reg 1, t.reg 15, t.pc)

/-- T241, T242. -/
theorem test_ld_imm : (after 0x61C3 (alu 0 0 0xAA)).map aluResult = some (0xC3, 0xAA, 0x202) := by decide
theorem test_add_imm : (after 0x7101 (alu 0xFF 0 0xAA)).map aluResult = some (0, 0xAA, 0x202) := by decide
theorem test_add_imm_vF : (after 0x7F01 (alu 0 0 0xFF)).map aluResult = some (0, 0, 0x202) := by decide
theorem test_ld_reg : (after 0x8120 (alu 0x11 0x5A 0xAA)).map aluResult = some (0x5A, 0xAA, 0x202) := by decide
theorem test_or : (after 0x8121 (alu 0x0C 0x0A 0xAA)).map aluResult = some (0x0E, 0xAA, 0x202) := by decide
theorem test_and : (after 0x8122 (alu 0x0C 0x0A 0xAA)).map aluResult = some (0x08, 0xAA, 0x202) := by decide
theorem test_xor : (after 0x8123 (alu 0x0C 0x0A 0xAA)).map aluResult = some (0x06, 0xAA, 0x202) := by decide
theorem test_add : (after 0x8124 (alu 0xC8 0x64 0xAA)).map aluResult = some (0x2C, 1, 0x202) := by decide
theorem test_add_255 : (after 0x8124 (alu 0x80 0x7F 0xAA)).map aluResult = some (0xFF, 0, 0x202) := by decide
theorem test_sub : (after 0x8125 (alu 5 5 0xAA)).map aluResult = some (0, 0, 0x202) := by decide
theorem test_sub_vF_minuend : (after 0x8F15 (alu 9 0 4)).map aluResult = some (9, 0xFB, 0x202) := by decide
theorem test_shr : (after 0x8126 (alu 5 0x99 0xAA)).map aluResult = some (2, 1, 0x202) := by decide
theorem test_shr_vF : (after 0x8F06 (alu 0 0 2)).map aluResult = some (0, 1, 0x202) := by decide
theorem test_subn : (after 0x8127 (alu 3 5 0xAA)).map aluResult = some (2, 1, 0x202) := by decide
theorem test_subn_vF_subtrahend : (after 0x81F7 (alu 5 0 9)).map aluResult = some (4, 1, 0x202) := by decide
theorem test_shl : (after 0x812E (alu 0x81 0x99 0xAA)).map aluResult = some (2, 1, 0x202) := by decide
theorem test_shl_vF : (after 0x8F0E (alu 0 0 0xC0)).map aluResult = some (0, 0x80, 0x202) := by decide

/-- Three bytes of memory from 0x300 up, `I` and `pc`. -/
def stored (t : State) : List Byte × Word × Word := (t.mem.readBytes 0x300 3, t.index, t.pc)

/-- T244. -/
theorem test_ld_i : (after 0xAFFF blank).map (·.index) = some 0xFFF := by decide
theorem test_add_i : (after 0xF11E { alu 2 0 0xAA with index := 0xFFFF }).map
    (fun t => (t.index, t.reg 15)) = some (1, 0xAA) := by decide
theorem test_add_i_13_bits : (after 0xF11E { alu 2 0 0xAA with index := 0xFFF }).map (·.index) = some 0x1001 := by decide
theorem test_ld_f : (after 0xF029 (blank.setReg 0 0x0A)).map (·.index) = some 0x32 := by decide
theorem test_ld_f_whole_byte : (after 0xF029 (blank.setReg 0 0xFF)).map (·.index) = some 0x4FB := by decide
theorem test_ld_b : (after 0xF033 (indexed 0x80 0x300)).map stored = some ([1, 2, 8], 0x300, 0x202) := by decide
theorem test_ld_b_out : (after 0xF033 (indexed 0x80 0xFFE)).map
    (fun t => (t.mem.readBytes 0xFFE 2, t.pc, t.fault)) = some ([0, 0], 0x200, some ⟨.memBounds, 0x1000⟩) := by decide
theorem test_dump : (after 0xF155 { alu 0x22 0x33 0 with index := 0x300 }).map stored =
    some ([0, 0x22, 0], 0x300, 0x202) := by decide
theorem test_dump_out : (after 0xFF55 (indexed 0 0xFFFF)).map (·.fault) = some (some ⟨.memBounds, 0x1000E⟩) := by decide
theorem test_load : (after 0xF165 (sprite 7 7 0x300 [2, 5, 5])).map
    (fun t => (t.reg 0, t.reg 1, t.reg 2, t.index)) = some (2, 5, 0, 0x300) := by decide
theorem test_load_font : (after 0xFF65 (indexed 7 0)).map (fun t => (t.reg 0, t.reg 1, t.reg 15)) =
    some (0xF0, 0x90, 0xF0) := by decide

/-- The pixels of row `r` at the listed columns. -/
def lit (t : State) (r : Nat) (cs : List Nat) : List Bool := cs.map (pixel t.fb r)

/-- T245: clear leaves `vF` and `draw_pending`. -/
theorem test_cls : (after 0x00E0 { blank.setReg 15 1 with fb := flipPixel blank.fb 3 5 }).map
    (fun t => (pixel t.fb 3 5, t.reg 15, t.drawPending, t.pc)) = some (false, 1, false, 0x202) := by decide

/-- T231, T245: the wrap over the right edge is per pixel and on the same row. -/
theorem test_drw : (after 0xD011 (sprite 0x3C 0 0x300 [0xFF])).map
    (fun t => (lit t 0 [59, 60, 63, 0, 3, 4], lit t 1 [0, 63], t.reg 15, t.drawPending)) =
    some ([false, true, true, true, true, false], [false, false], 0, true) := by decide

/-- T245: a partial overlap flips and collides. -/
theorem test_drw_collision : (after 0xD011 { sprite 2 0 0x300 [0xF0] with fb := flipPixel blank.fb 0 3 }).map
    (fun t => (lit t 0 [1, 2, 3, 4, 5, 6], t.reg 15)) = some ([false, true, false, true, true, false], 1) := by decide

/-- T247. -/
theorem test_skp : (after 0xE19E ((keysDown 5 5).setReg 1 5)).map (·.pc) = some 0x204 := by decide
theorem test_skp_index : (after 0xE19E (blank.setReg 1 16)).map
    (fun t => (t.pc, t.fault)) = some (0x200, some ⟨.keyIndex, 16⟩) := by decide
theorem test_sknp : (after 0xE1A1 ((keysDown 6 6).setReg 1 5)).map (·.pc) = some 0x204 := by decide
theorem test_sknp_not : (after 0xE1A1 ((keysDown 5 5).setReg 1 5)).map (·.pc) = some 0x202 := by decide
theorem test_ld_vx_dt : (after 0xF207 { blank with dt := 0x2A }).map (fun t => (t.reg 2, t.dt)) =
    some (0x2A, 0x2A) := by decide
theorem test_ld_dt : (after 0xF315 (blank.setReg 3 0x3C)).map (fun t => (t.dt, t.st)) = some (0x3C, 0) := by decide
theorem test_ld_st : (after 0xF418 (blank.setReg 4 0x0A)).map (fun t => (t.dt, t.st)) = some (0, 0x0A) := by decide
theorem test_ld_k : (after 0xF30A { keysDown 9 4 with pc := 0x210, status := .awaitingKey }).map
    (fun t => (t.reg 3, t.pc, t.status)) = some (4, 0x212, .running) := by decide
theorem test_ld_k_waits : (after 0xF30A { blank with pc := 0x210 }).map
    (fun t => (t.reg 3, t.pc, t.status)) = some (0, 0x210, .awaitingKey) := by decide

/-- T248, over its example table: the index wraps, and moves with `kk = 0` too. -/
theorem test_rnd_example_table :
    (rndWith [0x3C, 0xA5] 2 0xF0 { blank with rngIndex := 1 }).reg 2 = 0xA0 ∧
    (rndWith [0x3C, 0xA5] 2 0x00 { blank with rngIndex := 1 }).rngIndex = 0 := by decide

/-- T249, T250: an unrecognised word, a fetch outside memory, a faulted core, and a tick in that status. -/
theorem test_unrecognised : (after 0x00E1 blank).map (fun t => (t.pc, t.decodeErr, t.status)) =
    some (0x202, true, .running) := by decide
/-- R68: a near-miss word of each family is refused by name. -/
theorem test_near_miss :
    step (blank.withFetchWord 16 0x5121) = .refused (.nearMissWord 0x5121) ∧
    step (blank.withFetchWord 16 0x01E0) = .refused (.nearMissWord 0x01E0) := ⟨rfl, rfl⟩
theorem test_fetch_bounds : (after 0x6A02 { blank with pc := 0xFFF }).map
    (fun t => (t.pc, t.fault)) = some (0xFFF, some ⟨.fetchBounds, 0xFFF⟩) := by decide
theorem test_faulted_stays : (after 0x6A02 { blank with status := .faulted }).map
    (fun t => (t.pc, t.reg 10)) = some (0x200, 0) := by decide
theorem test_tick : (tickTimers { blank with status := .faulted, dt := 5, st := 0 }).dt = 4 ∧
    (tickTimers { blank with status := .faulted, dt := 5, st := 0 }).st = 0 := by decide

/-! ### Witnesses: a state and operands that meet the hypotheses of each obligation that has some -/

/-- `blank` with a word at `pc`. -/
def fetching (op : Word) (pc : Word) : State := placeWord op { blank with pc := pc }

/-- `blank` with actions scheduled. -/
def scheduled (es : List HostAction) : State := { blank with schedule := es }

/-- EncodeOfDecodeIsTheWord, at the first and the last row. -/
theorem witness_decoded : decodeWord 0x00E0 = some .cls ∧ decodeWord 0xFF65 = some (.ldVxMem 0xF) := by decide

/-- NoTwoRowsSelectOneWord: row 2 alone selects 0x00EE. -/
theorem witness_selected : (opcodeRows.map fun r => r.selects 0x00EE).idxsOf true = [1] := by decide

/-- WordsWithoutARowAreTheUnrecognisedFamilies and PoliciesForUnknownWords: near misses of each family of
R68, and an unrecognised word that is none. -/
theorem witness_near_miss :
    isNearMiss 0x5AB1 = true ∧ isNearMiss 0x9ABF = true ∧ isNearMiss 0x01E0 = true ∧ isNearMiss 0x0FEE = true ∧
    isNearMiss 0x0000 = false := by decide

/-- StepRunsTheDecodedInstruction, at the last fetchable `pc`, with and without a schedule. -/
theorem witness_step_decoded :
    (fetching 0x6A02 0xFFE).status ≠ .faulted ∧ (fetching 0x6A02 0xFFE).pc.toNat ≤ 0xFFE ∧
    decodeWord (fetchWord (fetching 0x6A02 0xFFE)) = some (.ldVxKk 0xA 0x02) ∧
    (fetching 0x6A02 0xFFE).schedule = [] ∧
    State.schedule { fetching 0x6A02 0xFFE with schedule := [.step, .tick] } = .step :: [.tick] := by decide

/-- FetchOutsideMemoryFaults, at the lowest such `pc` and the highest. -/
theorem witness_fetch_outside :
    (scheduled []).schedule = [] ∧ (scheduled []).status ≠ .faulted ∧
    State.pc { scheduled [] with pc := 0xFFF } = 0xFFF ∧ (0xFFF : Word).toNat > 0xFFE ∧ (0xFFFF : Word).toNat > 0xFFE := by
  decide

/-- UnrecognisedWordIsANoOpButANearMissIsRefused: a word of each of R67's families, near misses among them; and
each of its two cases fetched, at the last fetchable `pc`. -/
theorem witness_unrecognised :
    Unrecognised 0x0000 ∧ Unrecognised 0x5AB1 ∧ Unrecognised 0x8ABF ∧ Unrecognised 0x9ABF ∧ Unrecognised 0xEA9D ∧
    Unrecognised 0xFAFF :=
  ⟨.inl (by decide), .inr (.inl (by decide)), .inr (.inr (.inl (by decide))), .inr (.inr (.inr (.inl (by decide)))),
    .inr (.inr (.inr (.inr (.inl (by decide))))), .inr (.inr (.inr (.inr (.inr (by decide)))))⟩
theorem witness_unrecognised_fetched :
    (fetching 0x5AB1 0xFFE).schedule = [] ∧ (fetching 0x5AB1 0xFFE).status ≠ .faulted ∧
    (fetching 0x5AB1 0xFFE).pc.toNat ≤ 0xFFE ∧ fetchWord (fetching 0x5AB1 0xFFE) = 0x5AB1 ∧
    isNearMiss 0x5AB1 = true ∧ fetchWord (fetching 0xFAFF 0xFFE) = 0xFAFF ∧ isNearMiss 0xFAFF = false := by decide

/-- FaultedIsTerminal, with nothing scheduled and with a tick. -/
theorem witness_faulted :
    (raise .keyIndex 16 (scheduled [])).status = .faulted ∧ (raise .keyIndex 16 (scheduled [])).schedule = [] ∧
    (raise .keyIndex 16 (scheduled [.tick])).status = .faulted ∧
    (raise .keyIndex 16 (scheduled [.tick])).schedule = .tick :: [] ∧
    ∀ seed program, HostAction.tick ≠ .reset seed program := ⟨rfl, rfl, rfl, rfl, nofun⟩

/-- ResetActionLoadsTheProgram and OversizedProgramIsRefused, at the largest image that fits and one byte
more. -/
theorem witness_reset :
    (scheduled [.reset 4 (List.replicate 3584 0x6A)]).schedule = .reset 4 (List.replicate 3584 0x6A) :: [] ∧
    (List.replicate 3584 (0x6A : Byte)).length ≤ 3584 ∧
    (scheduled [.reset 4 (List.replicate 3585 0x6A)]).schedule = .reset 4 (List.replicate 3585 0x6A) :: [] ∧
    (List.replicate 3585 (0x6A : Byte)).length > 3584 := by
  rw [List.length_replicate, List.length_replicate]
  exact ⟨rfl, by decide, rfl, by decide⟩

/-- TickDecrementsBothTimers and HostActionsWriteOnlyTheirOwnState. -/
theorem witness_host_actions :
    (scheduled [.tick]).schedule = .tick :: [] ∧ (scheduled [.present]).schedule = .present :: [] ∧
    (scheduled [.keys (keysDown 4 9).key]).schedule = .keys (keysDown 4 9).key :: [] := by decide

/-- RetTakesTheTopSlot, CallPushesTheFollowingAddress, CallThenRetComesBack and FullOrEmptyStackFaults, at the
ends of each range. -/
theorem witness_stack :
    1 ≤ (held 1).sp.val ∧ 1 ≤ (held 16).sp.val ∧ (held 0).sp.val < 16 ∧ (held 15).sp.val < 16 ∧
    (held 16).sp.val = 16 ∧ (held 0).sp.val = 0 := by decide

/-- LoadImmediate's pattern. -/
theorem witness_6xkk : (0x6000 : Word) &&& 0xF000 = 0x6000 ∧ (0x6FFF : Word) &&& 0xF000 = 0x6000 := by decide

/-- BcdStoreWritesThreeDigits, RegisterDumpStoresTheRange, RegisterLoadReadsTheRange and
StoreIsSeenByTheNextFetch, at the last address that is in range. -/
theorem witness_in_range :
    (indexed 7 0xFFD).dataAddr 2 ≤ 0xFFF ∧ (indexed 7 0xFF0).dataAddr (15 : Reg).toNat ≤ 0xFFF ∧
    1 ≤ (1 : Reg).toNat ∧ (indexed 7 0xFFE).dataAddr (1 : Reg).toNat ≤ 0xFFF := by decide
theorem witness_next_fetch : ∃ t u : State, exec (.ldMemVx 1) (indexed 7 0xFFE) = .next t ∧ u.mem = t.mem ∧
    u.pc = (indexed 7 0xFFE).index := ⟨_, State.jump _ 0xFFE, rfl, rfl, rfl⟩

/-- TransferOutsideMemoryFaults: each clause at the first address out of range; `I` at its top. -/
theorem witness_out_of_range :
    (indexed 7 0xFFE).index.toNat + 2 > 0xFFF ∧ (indexed 7 0xFF1).index.toNat + (15 : Reg).toNat > 0xFFF ∧
    (indexed 7 0xFFFF).index.toNat + (0 : Reg).toNat > 0xFFF ∧ 1 ≤ (15 : Nibble).toNat ∧
    (indexed 7 0xFF2).index.toNat + (15 : Nibble).toNat - 1 > 0xFFF ∧ 1 ≤ (1 : Nibble).toNat ∧
    (indexed 7 0x1000).index.toNat + (1 : Nibble).toNat - 1 > 0xFFF := by decide

/-- DrawFlipsTheCoveredPixels and DrawTwiceRestoresTheScreen: no byte at the top of `I`, and the most bytes at the
last address in range. -/
theorem witness_sprite_in_memory : SpriteInMemory (indexed 7 0xFFFF) 0 ∧ SpriteInMemory (indexed 7 0xFF1) 15 ∧
    (0 : Reg) ≠ 15 ∧ (1 : Reg) ≠ 15 := by unfold SpriteInMemory; decide

/-- DrawFlipsTheCoveredPixels: a covered pixel that is on (a collision), one that is not covered, and a draw in
which every covered pixel is off. -/
theorem witness_sprite_covers :
    SpriteCovers (sprite 70 33 0x300 [0x80]) 0 1 1 1 6 ∧ ¬ SpriteCovers (sprite 70 33 0x300 [0x80]) 0 1 1 1 7 ∧
    pixel (flipPixel blank.fb 1 6) 1 6 = true := by unfold SpriteCovers; decide
theorem witness_sprite_no_collision :
    ∀ r c, SpriteCovers (sprite 70 33 0x300 [0x80]) 0 1 1 r c → pixel (sprite 70 33 0x300 [0x80]).fb r c = false := by
  rintro r c ⟨j, hj, b, hb, _, rfl, rfl⟩
  have : j = 0 := by simpa using hj
  subst this
  interval_cases b <;> decide

/-- KeySkipsFollowTheKey and KeyIndexAboveFifteenFaults, where their ranges meet. -/
theorem witness_key_index :
    ((keysDown 15 15).setReg 1 15 |>.reg 1).toNat < 16 ∧ (blank.setReg 1 16 |>.reg 1).toNat > 15 := by decide

/-- WaitForKeyTakesTheLowestPressed, at two keys down and at the highest key alone; WaitForKeyWithoutAKeyWaits. -/
theorem witness_lowest_key :
    (keysDown 9 4).key[(4 : Fin 16)] = true ∧ (∀ j : Fin 16, j < 4 → (keysDown 9 4).key[j] = false) ∧
    (keysDown 15 15).key[(15 : Fin 16)] = true ∧ (∀ j : Fin 16, j < 15 → (keysDown 15 15).key[j] = false) := by decide
theorem witness_no_key : ∀ k : Fin 16, blank.key[k] = false := by decide

/-- RandomTakesTheNextTableByte: the table is not empty. -/
theorem witness_random : blank.rngIndex < Config.rngTable.length := Nat.succ_pos _

/-- RandomNextWalksTheTable: a table, an instruction that is no `RND`, the three host actions, a core step on each
side of its clause, and a reset. -/
theorem witness_random_source :
    ([0x3C, 0xA5] : List Byte) ≠ [] ∧ (∃ t, exec .cls blank = .next t) ∧ (∀ x kk, Instr.cls ≠ .rndVxKk x kk) ∧
    (∃ t, act .tick blank = .next t) ∧ (∃ t, act (.keys (keysDown 1 2).key) blank = .next t) ∧
    (∃ t, act .present blank = .next t) ∧ (∃ t, executeOneInstruction blank = .next t) ∧
    (∃ t, executeOneInstruction (fetching 0xC10F 0x200) = .next t) ∧ ∃ t, act (.reset 4 [0x6A]) blank = .next t :=
  ⟨nofun, ⟨_, rfl⟩, nofun, ⟨_, rfl⟩, ⟨_, rfl⟩, ⟨_, rfl⟩, ⟨_, rfl⟩, ⟨_, rfl⟩, ⟨_, rfl⟩⟩

/-- EveryStepKeepsTheInvariant: a state with sixteen addresses held that meets the invariant and steps. -/
theorem witness_invariant : (held 16).Inv ∧ ∃ t, step (held 16) = .next t := by
  refine ⟨⟨by decide, Nat.succ_pos _, ?_, ⟨by decide, nofun⟩, nofun⟩, _, rfl⟩
  intro k h1 h2
  have h : (held 16).stackSlot k = 0x202 := by
    have : k - 1 < 16 := by have : k ≤ 16 := h2; omega
    simp [State.stackSlot, held, Vector.getD, this]
  rw [h]
  decide

/-- FaultsAreThoseOfTheTable: a state and an instruction for each side, at the ends of the ranges. -/
theorem witness_tabled_fault :
    (held 16).status ≠ .faulted ∧ tabledFault (.call 0x300) (held 16) = some ⟨.stackOverflow, 16⟩ ∧
    tabledFault (.call 0x300) (held 15) = none ∧ tabledFault (.ldBVx 0) (indexed 7 0xFFE) = some ⟨.memBounds, 0x1000⟩ ∧
    tabledFault (.ldBVx 0) (indexed 7 0xFFD) = none ∧ tabledFault (.drwVxVyN 0 1 0) (indexed 7 0xFFFF) = none ∧
    tabledFault (.drwVxVyN 0 1 15) (indexed 7 0xFF2) = some ⟨.memBounds, 0x1000⟩ ∧
    tabledFault (.ldVxMem 15) (indexed 7 0xFFFF) = some ⟨.memBounds, 0x1000E⟩ ∧
    (∃ t, exec (.call 0x300) (held 16) = .next t) ∧ (∃ t, exec (.call 0x300) (held 15) = .next t) := by
  refine ⟨by decide, by decide, by decide, by decide, by decide, by decide, by decide, by decide, ⟨_, rfl⟩, ⟨_, rfl⟩⟩

/-- RegistersChangeOnlyAsListed and OtherInstructionsAdvanceByTwo. -/
theorem witness_may_write :
    (∃ t, exec (.ldVxMem 14) blank = .next t) ∧ mayWriteReg (.ldVxMem 14) 15 = false ∧
    mayWriteReg (.addVxVy 1 2) 2 = false ∧ transfersControl (.ldVxMem 14) = false :=
  ⟨⟨_, rfl⟩, by decide, by decide, by decide⟩

/-- EachPieceOfStateHasItsWriters: `ADD V1,V2` is none of the writers it names; and `draw_pending` may be set. -/
theorem witness_writers :
    (∃ t, exec (.addVxVy 1 2) blank = .next t) ∧
    (∀ x, Instr.addVxVy 1 2 ≠ .ldBVx x ∧ Instr.addVxVy 1 2 ≠ .ldMemVx x) ∧
    (∀ nnn x, Instr.addVxVy 1 2 ≠ .ldINnn nnn ∧ Instr.addVxVy 1 2 ≠ .addIVx x ∧ Instr.addVxVy 1 2 ≠ .ldFVx x) ∧
    (∀ nnn, Instr.addVxVy 1 2 ≠ .call nnn) ∧ (∀ x y n, Instr.addVxVy 1 2 ≠ .drwVxVyN x y n) ∧
    (∀ x, Instr.addVxVy 1 2 ≠ .ldDtVx x) ∧ (∀ x, Instr.addVxVy 1 2 ≠ .ldStVx x) ∧
    (∀ x kk, Instr.addVxVy 1 2 ≠ .rndVxKk x kk) ∧ State.drawPending { blank with drawPending := true } = true :=
  ⟨⟨_, rfl⟩, fun _ => ⟨nofun, nofun⟩, fun _ _ => ⟨nofun, nofun, nofun⟩, nofun, nofun, nofun, nofun, nofun, rfl⟩

/-- EachPieceOfStateHasItsWriters, its clauses on registers, faults and the wait for a key. -/
theorem witness_writers_of_the_rest :
    mayWriteReg (.addVxVy 1 2) 2 = false ∧ tabledFault (.addVxVy 1 2) blank = none ∧
    (∀ x, Instr.addVxVy 1 2 ≠ .ldVxK x) ∧ tabledFault (.call 0x300) (held 16) ≠ none ∧
    (∃ t, exec (.call 0x300) (held 16) = .next t) ∧ (∃ x, Instr.ldVxK 3 = .ldVxK x) ∧
    ∃ t, exec (.ldVxK 3) blank = .next t :=
  ⟨by decide, by decide, nofun, by decide, ⟨_, rfl⟩, ⟨3, rfl⟩, ⟨_, rfl⟩⟩

/-- KeysReachOnlyTheKeyInstructions and OutputsAreReadByNoInstruction. -/
theorem witness_keys_unread :
    (∃ t, exec (.ldVxDt 1) (keysDown 3 4) = .next t) ∧
    ∀ x, Instr.ldVxDt 1 ≠ .skpVx x ∧ Instr.ldVxDt 1 ≠ .sknpVx x ∧ Instr.ldVxDt 1 ≠ .ldVxK x :=
  ⟨⟨_, rfl⟩, fun _ => ⟨nofun, nofun, nofun⟩⟩

/-- FinishedStaysFinished: the self-jump at 0x200, with nothing scheduled. -/
theorem witness_finished :
    (fetching 0x1200 0x200).finished ∧ (∀ seed program rest, (fetching 0x1200 0x200).schedule ≠ .reset seed program :: rest) ∧
    ∃ t, step (fetching 0x1200 0x200) = .next t := by
  have hs : (fetching 0x1200 0x200).schedule = [] := rfl
  refine ⟨by unfold State.finished; decide, by rw [hs]; nofun, State.jump (fetching 0x1200 0x200) 0x200, ?_⟩
  rw [step_of_nil hs]
  rfl

/-- DecodeErrorStaysUntilReset: with a tick scheduled. -/
theorem witness_decode_err :
    State.decodeErr { scheduled [.tick] with decodeErr := true } = true ∧
    (∀ seed program rest, (scheduled [.tick]).schedule ≠ .reset seed program :: rest) ∧
    ∃ t, step { scheduled [.tick] with decodeErr := true } = .next t := ⟨rfl, nofun, _, rfl⟩

end Sys2Proof.Tests
end

section
/-! PROOFS. The fields of a word as the bits of the word (30_encoding.md R63). -/

namespace Sys2Proof

/-! ### Fields that lie side by side in a word, read as one field (R63) -/

theorem yOf_append_nOf (op : Word) : yOf op ++ nOf op = kkOf op :=
  BitVec.extractLsb'_append_extractLsb'_eq_extractLsb' rfl

theorem xOf_append_kkOf (op : Word) : xOf op ++ kkOf op = nnnOf op :=
  BitVec.extractLsb'_append_extractLsb'_eq_extractLsb' rfl

theorem xOf_append_yOf (op : Word) : xOf op ++ yOf op = op.extractLsb' 4 8 :=
  BitVec.extractLsb'_append_extractLsb'_eq_extractLsb' rfl

theorem xOf_append_yOf_append_nOf (op : Word) : xOf op ++ yOf op ++ nOf op = nnnOf op := by
  rw [xOf_append_yOf]
  exact BitVec.extractLsb'_append_extractLsb'_eq_extractLsb' rfl

/-- Settles O6: each field by its value as a number, each overlap equation by the fields being adjacent. -/
theorem fieldsAreTheBitsOfTheWord : Obligations.FieldsAreTheBitsOfTheWord := fun op =>
  ⟨toNat_nnnOf op, toNat_nOf op, toNat_xOf op, toNat_yOf op, toNat_kkOf op, toNat_highNibbleOf op,
    (xOf_append_yOf_append_nOf op).symm, (xOf_append_kkOf op).symm, (yOf_append_nOf op).symm⟩

end Sys2Proof
end

section
/-! PROOFS. Decoding by the high nibble (30_encoding.md R63 to R65), the write of one register by an instruction that
advances, and `LD Vx,kk` (41_alu.md R100). -/

namespace Sys2Proof

/-! ### Every row tests the high nibble (R64, R65) -/

theorem mask_covers_highNibble : ∀ r ∈ opcodeRows, r.mask &&& 0xF000 = 0xF000 := by decide

/-- A word that selects a row has the high nibble of the row's pattern. -/
theorem highNibble_of_selects {r : OpcodeRow} {op : Word} (hr : r ∈ opcodeRows) (h : r.selects op = true) :
    op &&& 0xF000 = r.pattern &&& 0xF000 := by
  have hp : op &&& r.mask = r.pattern := beq_iff_eq.mp h
  rw [← hp, BitVec.and_assoc, mask_covers_highNibble r hr]

/-- A word that selects the row at `n` is decoded by it when no row before has the word's high nibble. -/
theorem decodeWord_of_selects {op : Word} {n : Nat} (hn : n < opcodeRows.length)
    (hs : opcodeRows[n].selects op = true)
    (hb : ∀ r ∈ opcodeRows.take n, r.pattern &&& 0xF000 ≠ op &&& 0xF000) :
    decodeWord op = some (opcodeRows[n].build op) := by
  have first : opcodeRows.find? (·.selects op) = some opcodeRows[n] := by
    refine List.find?_eq_some_iff_getElem.mpr ⟨hs, n, hn, rfl, fun j hj => ?_⟩
    rw [Bool.not_eq_true']
    refine Bool.eq_false_iff.mpr fun h => ?_
    exact hb opcodeRows[j] (List.mem_take_iff_getElem.mpr ⟨j, by omega, rfl⟩)
      (highNibble_of_selects (List.getElem_mem _) h).symm
  rw [decodeWord, first, Option.map_some]

/-- The pattern `6xkk` (R100): no row of R65 before the eighth has its high nibble. -/
theorem decodeWord_6xkk {op : Word} (h : op &&& 0xF000 = 0x6000) :
    decodeWord op = some (.ldVxKk (xOf op) (kkOf op)) := by
  have before : ∀ r ∈ opcodeRows.take 7, r.pattern &&& 0xF000 ≠ 0x6000 := by decide
  rw [← h] at before
  exact decodeWord_of_selects (n := 7) (by decide) (beq_iff_eq.mpr h) before

end Sys2Proof

namespace Sys2Proof.Machine

/-- The effect of an instruction that writes one register and advances (R62, R100 to R105). -/
theorem writesReg_setReg_advance (s : State) (x : Reg) (b : Byte) :
    WritesReg s (s.setReg x b).advance x b.toNat := by
  refine ⟨?_, fun r hr => ?_, rfl, rfl, fun _ => rfl⟩
  · rw [reg_advance, reg_setReg_same]
  · rw [reg_advance, reg_setReg_ne s x r b hr]

theorem exec_ldVxKk (x : Reg) (kk : Byte) (s : State) : exec (.ldVxKk x kk) s = .next (s.setReg x kk).advance := rfl

/-- Settles O25: the pattern by its row of R65, the effect by the rule of a register write that advances, and the
example as an instance of both. -/
theorem loadImmediate : Obligations.LoadImmediate := by
  refine ⟨fun op => decodeWord_6xkk, fun x kk s => ?_, fun s => ?_⟩
  · exact ⟨_, exec_ldVxKk x kk s, writesReg_setReg_advance s x kk⟩
  · have hd : decodeWord 0x6A02 = some (.ldVxKk 10 2) := decodeWord_6xkk (by decide)
    exact ⟨_, _, hd, exec_ldVxKk 10 2 s, reg_setReg_same s 10 2⟩

end Sys2Proof.Machine
end

section
/-! PROOFS. The walk of the pseudo-random source through its table, and who moves its index
(44_keys_timers_random.md R157; 10_state.md R20). -/

namespace Sys2Proof.Machine

/-! ### One call, and a number of calls (R157) -/

theorem randomNext_mod_snd (table : List Byte) (i : Nat) :
    (randomNext table (i % table.length)).2 = (i + 1) % table.length :=
  Nat.mod_add_mod i table.length 1

theorem randomNext_mod_fst {table : List Byte} (h : table ≠ []) (i : Nat) :
    some (randomNext table (i % table.length)).1 = table[i % table.length]? := by
  have hi : i % table.length < table.length := Nat.mod_lt i (List.length_pos_iff.mpr h)
  rw [randomNext, Nat.mod_mod, List.getD_eq_getElem table 0 hi, List.getElem?_eq_getElem hi]

theorem iterate_randomNext_snd (table : List Byte) (i j : Nat) :
    (fun k => (randomNext table k).2)^[j] (i % table.length) = (i + j) % table.length := by
  induction j with
  | zero => rfl
  | succ j ih => rw [Function.iterate_succ_apply', ih, randomNext_mod_snd, Nat.add_assoc]

/-! ### Who moves the index -/

/-- An effect keeps the index, or is that of `RND` and moves it by one call. -/
theorem Effect.rngIndex {i : Instr} {s t : State} (h : Effect i s t) :
    t.rngIndex = s.rngIndex ∨
      ∃ x kk, i = .rndVxKk x kk ∧ t.rngIndex = (randomNext Config.rngTable s.rngIndex).2 := by
  cases h with
  | rnd x kk hi v hv n hn => exact .inr ⟨x, kk, hi, hn⟩
  | _ => exact .inl rfl

/-- An instruction keeps the index, or is `RND` and moves it by one call (R156). -/
theorem exec_rngIndex {i : Instr} {s t : State} (h : exec i s = .next t) :
    t.rngIndex = s.rngIndex ∨
      ∃ x kk, i = .rndVxKk x kk ∧ t.rngIndex = (randomNext Config.rngTable s.rngIndex).2 := by
  rcases answers_of_exec h with ⟨f, _, rfl⟩ | ⟨_, he⟩
  · exact .inl rfl
  · exact he.rngIndex

/-- The core's step keeps the index, or executes `RND` and moves it by one call (R71). -/
theorem executeOneInstruction_rngIndex {s t : State} (h : executeOneInstruction s = .next t) :
    t.rngIndex = s.rngIndex ∨ ∃ x kk, decodeWord (fetchWord s) = some (.rndVxKk x kk) ∧
      t.rngIndex = (randomNext Config.rngTable s.rngIndex).2 := by
  rcases executeOneInstruction_cases s with
    ⟨_, e⟩ | ⟨_, _, e⟩ | ⟨_, _, i, hd, e⟩ | ⟨_, _, _, _, e⟩ | ⟨_, _, _, _, e⟩
  · cases e.symm.trans h; exact .inl rfl
  · cases e.symm.trans h; exact .inl rfl
  · rcases exec_rngIndex (e.symm.trans h) with hk | ⟨x, kk, rfl, hm⟩
    · exact .inl hk
    · exact .inr ⟨x, kk, hd, hm⟩
  · cases e.symm.trans h
  · cases e.symm.trans h; exact .inl rfl

/-- A tick, a change of the keys and a presentation keep the index (R177, R179, R181). -/
theorem act_rngIndex_of_hostAction {e : HostAction} {s t : State}
    (he : e = .tick ∨ (∃ levels, e = .keys levels) ∨ e = .present) (h : act e s = .next t) :
    t.rngIndex = s.rngIndex := by
  rcases he with rfl | ⟨levels, rfl⟩ | rfl <;> cases h <;> rfl

/-- A reset seeds the generator (R157, R200). -/
theorem act_reset_rngIndex {seed : Nat} {program : List Byte} {s t : State}
    (h : act (.reset seed program) s = .next t) : t.rngIndex = seed % Config.rngTable.length := by
  rw [act, resetWith] at h
  split at h
  · cases h; rfl
  · cases h

/-- Settles O46: the walk by the number of calls, its period being the walk of `size` calls; who moves the index by
the cases of an instruction and of the core's step. -/
theorem randomNextWalksTheTable : Obligations.RandomNextWalksTheTable := by
  refine ⟨fun table seed j ht => ⟨iterate_randomNext_snd table seed j, randomNext_mod_fst ht _,
    randomNext_mod_snd table _, ?period⟩, fun i s t h hi => ?_, fun _ _ _ => act_rngIndex_of_hostAction,
    fun _ _ => executeOneInstruction_rngIndex, rfl, fun _ _ _ _ => act_reset_rngIndex⟩
  case period => rw [iterate_randomNext_snd, Nat.add_mod_right]
  rcases exec_rngIndex h with hk | ⟨x, kk, e, _⟩
  · exact hk
  · exact absurd e (hi x kk)

end Sys2Proof.Machine
end

section
/-! PROOFS. Decoding and encoding are inverse to each other, and the words that decode to nothing (30_encoding.md R60,
R63 to R68). -/

namespace Sys2Proof

/-! ### No two rows match one word (R65) -/

/-- Two rows disagree on a bit that both of them test. -/
theorem rows_disagree : ∀ m n : Fin opcodeRows.length,
    opcodeRows[m].pattern &&& opcodeRows[n].mask = opcodeRows[n].pattern &&& opcodeRows[m].mask → m = n := by decide

/-- The rows that select one word agree on every bit that both of them test. -/
theorem patterns_agree_of_selects {r q : OpcodeRow} {op : Word} (hr : r.selects op = true) (hq : q.selects op = true) :
    r.pattern &&& q.mask = q.pattern &&& r.mask := by
  have er : op &&& r.mask = r.pattern := beq_iff_eq.mp hr
  have eq : op &&& q.mask = q.pattern := beq_iff_eq.mp hq
  rw [← er, ← eq, BitVec.and_assoc, BitVec.and_assoc, BitVec.and_comm r.mask]

/-- Settles O3: a word's two rows agree on the bits that both test, and two different rows never do. -/
theorem noTwoRowsSelectOneWord : Obligations.NoTwoRowsSelectOneWord := fun _ m n hm hn =>
  rows_disagree m n (patterns_agree_of_selects hm hn)

theorem row_eq_of_selects {r q : OpcodeRow} {op : Word} (hr : r ∈ opcodeRows) (hq : q ∈ opcodeRows)
    (sr : r.selects op = true) (sq : q.selects op = true) : r = q := by
  obtain ⟨m, rfl⟩ := List.mem_iff_get.mp hr
  obtain ⟨n, rfl⟩ := List.mem_iff_get.mp hq
  rw [noTwoRowsSelectOneWord op m n sr sq]

/-- The row that a word selects is the one that decodes it (R71). -/
theorem decodeWord_of_row {r : OpcodeRow} {op : Word} (hr : r ∈ opcodeRows) (hs : r.selects op = true) :
    decodeWord op = some (r.build op) := by
  obtain ⟨q, hq⟩ := Option.isSome_iff_exists.mp (List.find?_isSome (p := (·.selects op)).mpr ⟨r, hr, hs⟩)
  have sq : q.selects op = true := List.find?_some (p := fun r : OpcodeRow => r.selects op) hq
  rw [decodeWord, hq, Option.map_some, row_eq_of_selects (List.mem_of_find?_eq_some hq) hr sq hs]

/-- What decodes a word is a row that the word selects. -/
theorem exists_row_of_decodeWord {op : Word} {i : Instr} (h : decodeWord op = some i) :
    ∃ r ∈ opcodeRows, r.selects op = true ∧ r.build op = i := by
  obtain ⟨r, hr, hb⟩ := Option.map_eq_some_iff.mp h
  have hs : r.selects op = true := List.find?_some (p := fun r : OpcodeRow => r.selects op) hr
  exact ⟨r, List.mem_of_find?_eq_some hr, hs, hb⟩

/-! ### The encoder's word is decoded (R64, R65) -/

theorem rowFields (i : Instr) : Laws.RowFields.Statement i :=
  match i with
  | .cls => Laws.RowFields.cls
  | .ret => Laws.RowFields.ret
  | .jp nnn => Laws.RowFields.jp nnn
  | .call nnn => Laws.RowFields.call nnn
  | .seVxKk x kk => Laws.RowFields.seVxKk x kk
  | .sneVxKk x kk => Laws.RowFields.sneVxKk x kk
  | .seVxVy x y => Laws.RowFields.seVxVy x y
  | .ldVxKk x kk => Laws.RowFields.ldVxKk x kk
  | .addVxKk x kk => Laws.RowFields.addVxKk x kk
  | .ldVxVy x y => Laws.RowFields.ldVxVy x y
  | .orVxVy x y => Laws.RowFields.orVxVy x y
  | .andVxVy x y => Laws.RowFields.andVxVy x y
  | .xorVxVy x y => Laws.RowFields.xorVxVy x y
  | .addVxVy x y => Laws.RowFields.addVxVy x y
  | .subVxVy x y => Laws.RowFields.subVxVy x y
  | .shrVx x y => Laws.RowFields.shrVx x y
  | .subnVxVy x y => Laws.RowFields.subnVxVy x y
  | .shlVx x y => Laws.RowFields.shlVx x y
  | .sneVxVy x y => Laws.RowFields.sneVxVy x y
  | .ldINnn nnn => Laws.RowFields.ldINnn nnn
  | .jpV0Nnn nnn => Laws.RowFields.jpV0Nnn nnn
  | .rndVxKk x kk => Laws.RowFields.rndVxKk x kk
  | .drwVxVyN x y n => Laws.RowFields.drwVxVyN x y n
  | .skpVx x => Laws.RowFields.skpVx x
  | .sknpVx x => Laws.RowFields.sknpVx x
  | .ldVxDt x => Laws.RowFields.ldVxDt x
  | .ldVxK x => Laws.RowFields.ldVxK x
  | .ldDtVx x => Laws.RowFields.ldDtVx x
  | .ldStVx x => Laws.RowFields.ldStVx x
  | .addIVx x => Laws.RowFields.addIVx x
  | .ldFVx x => Laws.RowFields.ldFVx x
  | .ldBVx x => Laws.RowFields.ldBVx x
  | .ldMemVx x => Laws.RowFields.ldMemVx x
  | .ldVxMem x => Laws.RowFields.ldVxMem x

@[simp] theorem decodeWord_encode (i : Instr) : decodeWord (encode i) = some i := by
  obtain ⟨r, hr, hs, hb⟩ := rowFields i
  rw [decodeWord_of_row hr hs, hb]

/-- A word is its two bytes in memory order (R44, R60). -/
@[simp] theorem wordOfBytes_highByte_lowByte (op : Word) : wordOfBytes (highByte op) (lowByte op) = op := by
  have h : highByte op ++ lowByte op = op.extractLsb' 0 16 := BitVec.extractLsb'_append_extractLsb'_eq_extractLsb' rfl
  exact h.trans BitVec.extractLsb'_eq_self

/-- Settles O1: the row of the encoded word reads the operands back, and no other row matches that word. -/
theorem decodeOfEncodeIsTheInstruction : Obligations.DecodeOfEncodeIsTheInstruction := by
  refine fun i rest => ⟨decodeWord_encode i, ?_⟩
  rw [decode, wordOfBytes_highByte_lowByte, decodeWord_encode]

/-! ### A decoded word is the encoder's (R64, R65) -/

theorem formXKK_fields (op : Word) : formXKK (highNibbleOf op) (xOf op) (kkOf op) = op := by
  have := op.isLt
  apply BitVec.eq_of_toNat_eq
  rw [toNat_formXKK, toNat_highNibbleOf, toNat_xOf, toNat_kkOf]
  omega

theorem formNNN_fields (op : Word) : formNNN (highNibbleOf op) (nnnOf op) = op := by
  have := op.isLt
  apply BitVec.eq_of_toNat_eq
  rw [toNat_formNNN, toNat_highNibbleOf, toNat_nnnOf]
  omega

section
variable {op : Word} {o : Nibble}

theorem formNNN_of_highNibble (h : highNibbleOf op = o) : formNNN o (nnnOf op) = op := h ▸ formNNN_fields op

theorem formNNN_of_low {a : Addr12} (h : highNibbleOf op = o) (ha : nnnOf op = a) : formNNN o a = op :=
  ha ▸ formNNN_of_highNibble h

theorem formXKK_of_highNibble (h : highNibbleOf op = o) : formXKK o (xOf op) (kkOf op) = op := h ▸ formXKK_fields op

theorem formXYN_of_highNibble (h : highNibbleOf op = o) : formXYN o (xOf op) (yOf op) (nOf op) = op :=
  h ▸ formXYN_fields op

theorem formXYN_of_low {n : Nibble} (h : highNibbleOf op = o) (hn : nOf op = n) :
    formXYN o (xOf op) (yOf op) n = op := hn ▸ formXYN_of_highNibble h

theorem formXKK_of_low {kk : Byte} (h : highNibbleOf op = o) (hk : kkOf op = kk) : formXKK o (xOf op) kk = op :=
  hk ▸ formXKK_of_highNibble h

end

section
variable {op : Word} {f : Word → Instr}

/-- A row that tests the high nibble alone. -/
theorem highNibbleOf_of_selects {o : Nibble}
    (h : OpcodeRow.selects ⟨formXYN o 0 0 0, formXYN 0xF 0 0 0, f⟩ op = true) : highNibbleOf op = o := by
  have ho := ((selects_iff op o 0 0 0 0xF 0 0 0 f).mp h).1
  rwa [show (0xF : Nibble) = BitVec.allOnes 4 from rfl, BitVec.and_allOnes] at ho

theorem formNNN_of_selects (o : Nibble)
    (h : OpcodeRow.selects ⟨formXYN o 0 0 0, formXYN 0xF 0 0 0, f⟩ op = true) : formNNN o (nnnOf op) = op :=
  formNNN_of_highNibble (highNibbleOf_of_selects h)

theorem formXKK_of_selects (o : Nibble)
    (h : OpcodeRow.selects ⟨formXYN o 0 0 0, formXYN 0xF 0 0 0, f⟩ op = true) :
    formXKK o (xOf op) (kkOf op) = op :=
  formXKK_of_highNibble (highNibbleOf_of_selects h)

theorem formXYN_of_selects (o : Nibble)
    (h : OpcodeRow.selects ⟨formXYN o 0 0 0, formXYN 0xF 0 0 0, f⟩ op = true) :
    formXYN o (xOf op) (yOf op) (nOf op) = op :=
  formXYN_of_highNibble (highNibbleOf_of_selects h)

/-- A row that tests the high and the low nibble leaves `x` and `y` as operands. -/
theorem formXYN_of_selects_low (o n : Nibble)
    (h : OpcodeRow.selects ⟨formXYN o 0 0 n, formXYN 0xF 0 0 0xF, f⟩ op = true) :
    formXYN o (xOf op) (yOf op) n = op := by
  obtain ⟨ho, -, -, hn⟩ := (selects_iff op o 0 0 n 0xF 0 0 0xF f).mp h
  rw [show (0xF : Nibble) = BitVec.allOnes 4 from rfl, BitVec.and_allOnes] at ho hn
  exact formXYN_of_low ho hn

/-- A row that tests the high nibble and the low byte leaves `x` as the operand. -/
theorem formXKK_of_selects_low (o p q : Nibble)
    (h : OpcodeRow.selects ⟨formXYN o 0 p q, formXYN 0xF 0 0xF 0xF, f⟩ op = true) :
    formXKK o (xOf op) (p ++ q) = op := by
  obtain ⟨ho, -, hp, hq⟩ := (selects_iff op o 0 p q 0xF 0 0xF 0xF f).mp h
  rw [show (0xF : Nibble) = BitVec.allOnes 4 from rfl, BitVec.and_allOnes] at ho hp hq
  exact formXKK_of_low ho (by rw [← hp, ← hq, yOf_append_nOf])

/-- A row that tests every bit. -/
theorem pattern_of_selects {w : Word} (h : OpcodeRow.selects ⟨w, 0xFFFF, f⟩ op = true) : w = op :=
  (beq_iff_eq.mp h).symm.trans (BitVec.and_allOnes (x := op))

end

/-- The row's instruction, read from a word that selects the row, is encoded by that word. -/
def OpcodeRow.ReadsBack (r : OpcodeRow) : Prop := ∀ op : Word, r.selects op = true → encode (r.build op) = op

theorem readsBack_0to7 : ∀ r ∈ opcodeRows0to7, r.ReadsBack := by
  simp only [opcodeRows0to7, List.forall_mem_cons]
  exact ⟨fun _ => pattern_of_selects, fun _ => pattern_of_selects, fun _ => formNNN_of_selects 0x1,
    fun _ => formNNN_of_selects 0x2, fun _ => formXKK_of_selects 0x3, fun _ => formXKK_of_selects 0x4,
    fun _ => formXYN_of_selects_low 0x5 0x0, fun _ => formXKK_of_selects 0x6, fun _ => formXKK_of_selects 0x7, nofun⟩

theorem readsBack_8 : ∀ r ∈ opcodeRows8, r.ReadsBack := by
  simp only [opcodeRows8, List.forall_mem_cons]
  exact ⟨fun _ => formXYN_of_selects_low 0x8 0x0, fun _ => formXYN_of_selects_low 0x8 0x1,
    fun _ => formXYN_of_selects_low 0x8 0x2, fun _ => formXYN_of_selects_low 0x8 0x3,
    fun _ => formXYN_of_selects_low 0x8 0x4, fun _ => formXYN_of_selects_low 0x8 0x5,
    fun _ => formXYN_of_selects_low 0x8 0x6, fun _ => formXYN_of_selects_low 0x8 0x7,
    fun _ => formXYN_of_selects_low 0x8 0xE, nofun⟩

theorem readsBack_9toE : ∀ r ∈ opcodeRows9toE, r.ReadsBack := by
  simp only [opcodeRows9toE, List.forall_mem_cons]
  exact ⟨fun _ => formXYN_of_selects_low 0x9 0x0, fun _ => formNNN_of_selects 0xA, fun _ => formNNN_of_selects 0xB,
    fun _ => formXKK_of_selects 0xC, fun _ => formXYN_of_selects 0xD, fun _ => formXKK_of_selects_low 0xE 0x9 0xE,
    fun _ => formXKK_of_selects_low 0xE 0xA 0x1, nofun⟩

theorem readsBack_F : ∀ r ∈ opcodeRowsF, r.ReadsBack := by
  simp only [opcodeRowsF, List.forall_mem_cons]
  exact ⟨fun _ => formXKK_of_selects_low 0xF 0x0 0x7, fun _ => formXKK_of_selects_low 0xF 0x0 0xA,
    fun _ => formXKK_of_selects_low 0xF 0x1 0x5, fun _ => formXKK_of_selects_low 0xF 0x1 0x8,
    fun _ => formXKK_of_selects_low 0xF 0x1 0xE, fun _ => formXKK_of_selects_low 0xF 0x2 0x9,
    fun _ => formXKK_of_selects_low 0xF 0x3 0x3, fun _ => formXKK_of_selects_low 0xF 0x5 0x5,
    fun _ => formXKK_of_selects_low 0xF 0x6 0x5, nofun⟩

theorem readsBack {r : OpcodeRow} (h : r ∈ opcodeRows) : r.ReadsBack := by
  rcases List.mem_append.mp h with h | h
  · rcases List.mem_append.mp h with h | h
    · rcases List.mem_append.mp h with h | h
      · exact readsBack_0to7 r h
      · exact readsBack_8 r h
    · exact readsBack_9toE r h
  · exact readsBack_F r h

theorem encode_of_decodeWord {op : Word} {i : Instr} (h : decodeWord op = some i) : encode i = op := by
  obtain ⟨r, hr, hs, rfl⟩ := exists_row_of_decodeWord h
  exact readsBack hr op hs

/-- Settles O2: the row that decodes the word fixes every bit that is not an operand, and the encoder puts the
operands back. -/
theorem encodeOfDecodeIsTheWord : Obligations.EncodeOfDecodeIsTheWord := fun _ _ => encode_of_decodeWord

theorem decodeWord_eq_some_iff {op : Word} {i : Instr} : decodeWord op = some i ↔ encode i = op :=
  ⟨encode_of_decodeWord, fun h => h ▸ decodeWord_encode i⟩

theorem decodeWord_eq_none_iff {op : Word} : decodeWord op = none ↔ ¬ ∃ i, encode i = op := by
  simp only [Option.eq_none_iff_forall_ne_some, ne_eq, decodeWord_eq_some_iff, not_exists]

end Sys2Proof

namespace Sys2Proof.Machine

/-! ### The words without a row (R67, R68) -/

theorem not_unrecognised_encode (i : Instr) : ¬ Unrecognised (encode i) := by
  cases i with
  | cls | ret => simp only [Unrecognised]; decide
  | _ => simp [Unrecognised, encode]

/-- The families in which no word is unrecognised. -/
theorem exists_encode_of_plain_family {op : Word} (h : highNibbleOf op ∉ ([0x0, 0x5, 0x8, 0x9, 0xE, 0xF] : List Nibble)) :
    ∃ i, encode i = op := by
  have families : ∀ o : Nibble, o ∉ ([0x0, 0x5, 0x8, 0x9, 0xE, 0xF] : List Nibble) →
      o = 0x1 ∨ o = 0x2 ∨ o = 0x3 ∨ o = 0x4 ∨ o = 0x6 ∨ o = 0x7 ∨ o = 0xA ∨ o = 0xB ∨ o = 0xC ∨ o = 0xD := by decide
  rcases families _ h with ho | ho | ho | ho | ho | ho | ho | ho | ho | ho
  · exact ⟨.jp _, formNNN_of_highNibble ho⟩
  · exact ⟨.call _, formNNN_of_highNibble ho⟩
  · exact ⟨.seVxKk _ _, formXKK_of_highNibble ho⟩
  · exact ⟨.sneVxKk _ _, formXKK_of_highNibble ho⟩
  · exact ⟨.ldVxKk _ _, formXKK_of_highNibble ho⟩
  · exact ⟨.addVxKk _ _, formXKK_of_highNibble ho⟩
  · exact ⟨.ldINnn _, formNNN_of_highNibble ho⟩
  · exact ⟨.jpV0Nnn _, formNNN_of_highNibble ho⟩
  · exact ⟨.rndVxKk _ _, formXKK_of_highNibble ho⟩
  · exact ⟨.drwVxVyN _ _ _, formXYN_of_highNibble ho⟩

theorem exists_encode_of_family_8 {op : Word} (ho : highNibbleOf op = 0x8)
    (h : nOf op ∉ ([0x8, 0x9, 0xA, 0xB, 0xC, 0xD, 0xF] : List Nibble)) : ∃ i, encode i = op := by
  have selectors : ∀ n : Nibble, n ∉ ([0x8, 0x9, 0xA, 0xB, 0xC, 0xD, 0xF] : List Nibble) →
      n = 0x0 ∨ n = 0x1 ∨ n = 0x2 ∨ n = 0x3 ∨ n = 0x4 ∨ n = 0x5 ∨ n = 0x6 ∨ n = 0x7 ∨ n = 0xE := by decide
  rcases selectors _ h with hn | hn | hn | hn | hn | hn | hn | hn | hn
  · exact ⟨.ldVxVy _ _, formXYN_of_low ho hn⟩
  · exact ⟨.orVxVy _ _, formXYN_of_low ho hn⟩
  · exact ⟨.andVxVy _ _, formXYN_of_low ho hn⟩
  · exact ⟨.xorVxVy _ _, formXYN_of_low ho hn⟩
  · exact ⟨.addVxVy _ _, formXYN_of_low ho hn⟩
  · exact ⟨.subVxVy _ _, formXYN_of_low ho hn⟩
  · exact ⟨.shrVx _ _, formXYN_of_low ho hn⟩
  · exact ⟨.subnVxVy _ _, formXYN_of_low ho hn⟩
  · exact ⟨.shlVx _ _, formXYN_of_low ho hn⟩

theorem exists_encode_of_family_F {op : Word} (ho : highNibbleOf op = 0xF)
    (h : kkOf op ∈ ([0x07, 0x0A, 0x15, 0x18, 0x1E, 0x29, 0x33, 0x55, 0x65] : List Byte)) : ∃ i, encode i = op := by
  simp only [List.mem_cons, List.not_mem_nil, or_false] at h
  rcases h with hk | hk | hk | hk | hk | hk | hk | hk | hk
  · exact ⟨.ldVxDt _, formXKK_of_low ho hk⟩
  · exact ⟨.ldVxK _, formXKK_of_low ho hk⟩
  · exact ⟨.ldDtVx _, formXKK_of_low ho hk⟩
  · exact ⟨.ldStVx _, formXKK_of_low ho hk⟩
  · exact ⟨.addIVx _, formXKK_of_low ho hk⟩
  · exact ⟨.ldFVx _, formXKK_of_low ho hk⟩
  · exact ⟨.ldBVx _, formXKK_of_low ho hk⟩
  · exact ⟨.ldMemVx _, formXKK_of_low ho hk⟩
  · exact ⟨.ldVxMem _, formXKK_of_low ho hk⟩

theorem exists_encode_of_not_unrecognised {op : Word} (h : ¬ Unrecognised op) : ∃ i, encode i = op := by
  simp only [Unrecognised, not_or, not_and, not_not] at h
  obtain ⟨h0, h5, h8, h9, hE, hF⟩ := h
  by_cases hp : highNibbleOf op ∈ ([0x0, 0x5, 0x8, 0x9, 0xE, 0xF] : List Nibble)
  · simp only [List.mem_cons, List.not_mem_nil, or_false] at hp
    rcases hp with ho | ho | ho | ho | ho | ho
    · by_cases hn : nnnOf op = 0x0E0
      · exact ⟨.cls, formNNN_of_low ho hn⟩
      · exact ⟨.ret, formNNN_of_low ho (h0 ho hn)⟩
    · exact ⟨.seVxVy _ _, formXYN_of_low ho (h5 ho)⟩
    · exact exists_encode_of_family_8 ho (h8 ho)
    · exact ⟨.sneVxVy _ _, formXYN_of_low ho (h9 ho)⟩
    · by_cases hk : kkOf op = 0x9E
      · exact ⟨.skpVx _, formXKK_of_low ho hk⟩
      · exact ⟨.sknpVx _, formXKK_of_low ho (hE ho hk)⟩
    · exact exists_encode_of_family_F ho (hF ho)
  · exact exists_encode_of_plain_family hp

theorem decodeWord_eq_none_iff_unrecognised {op : Word} : decodeWord op = none ↔ Unrecognised op := by
  rw [decodeWord_eq_none_iff]
  refine ⟨fun h => by_contra fun hu => h (exists_encode_of_not_unrecognised hu), ?_⟩
  rintro hu ⟨i, rfl⟩
  exact not_unrecognised_encode i hu

/-- A near miss of family 0 differs from `CLS` and `RET` in the nibble `x` of its address. -/
theorem unrecognised_of_isNearMiss {op : Word} (h : isNearMiss op = true) : Unrecognised op := by
  simp only [isNearMiss, Bool.or_eq_true, Bool.and_eq_true, beq_iff_eq, bne_iff_ne] at h
  rcases h with ⟨ho | ho, hn⟩ | ⟨⟨ho, -⟩, hx⟩
  · exact .inr (.inl ⟨ho, hn⟩)
  · exact .inr (.inr (.inr (.inl ⟨ho, hn⟩)))
  · have hx' : 256 ≤ (nnnOf op).toNat := by
      have : (xOf op).toNat ≠ 0 := fun e => hx (BitVec.eq_of_toNat_eq e)
      rw [toNat_xOf] at this
      rw [toNat_nnnOf]
      omega
    refine .inl ⟨ho, fun e => ?_, fun e => ?_⟩ <;> rw [e] at hx' <;> exact absurd hx' (by decide)

/-- Settles O4: outside the six families each word is some instruction's encoding, and no encoding lies in one. -/
theorem wordsWithoutARowAreTheUnrecognisedFamilies : Obligations.WordsWithoutARowAreTheUnrecognisedFamilies :=
  ⟨fun _ => decodeWord_eq_none_iff_unrecognised, fun _ => unrecognised_of_isNearMiss⟩

/-- Settles O5: each of the words is the encoding of the instruction beside it. -/
theorem handWrittenWordsDecode : Obligations.HandWrittenWordsDecode := by
  simp only [Obligations.HandWrittenWordsDecode, decodeWord_eq_some_iff]
  decide

end Sys2Proof.Machine
end

section
/-! PROOFS. What an instruction writes, field by field, and when it faults or waits (10_state.md R11 to R24;
60_exceptions.md R170, R173, R174). -/

namespace Sys2Proof.Machine

/-- Settles O49: the inversion lemma names the next state. -/
theorem everyInstructionAnswersANextState : Obligations.EveryInstructionAnswersANextState := fun i s =>
  (exec_answers i s).imp fun _ h => h.1

/-! ### The wait for a key (44_keys_timers_random.md R153) -/

theorem keyPick_none_iff_forall {key : Vector Bool 16} : keyPick key = none ↔ ∀ k : Fin 16, key[k] = false := by
  rw [keyPick_none, Fin.forall_iff]
  exact forall₂_congr fun k hk => by simp [Vector.getD, hk]

theorem exec_ldVxK_of_no_key {s : State} (h : keyPick s.key = none) (x : Reg) :
    exec (.ldVxK x) s = .next { s with status := .awaitingKey } := by
  rw [exec, execLdVxK, h]

theorem exec_ldVxK_of_key {s : State} {k : Nat} (h : keyPick s.key = some k) (x : Reg) :
    exec (.ldVxK x) s = .next { s.setReg x (BitVec.ofNat 8 k) with status := .running }.advance := by
  rw [exec, execLdVxK, h]

/-- Settles O43: no key is chosen when none is down. -/
theorem waitForKeyWithoutAKeyWaits : Obligations.WaitForKeyWithoutAKeyWaits := fun x _ h =>
  exec_ldVxK_of_no_key (keyPick_none_iff_forall.mpr h) x

theorem keyPick_eq_some_of_lowest {key : Vector Bool 16} {k : Fin 16} (hk : key[k] = true)
    (low : ∀ j : Fin 16, j < k → key[j] = false) : keyPick key = some k.val := by
  have hk' : key[k.val] = true := hk
  rw [keyPick, List.find?_range_eq_some]
  refine ⟨by simp [Vector.getD, hk'], by simp, fun j hj => ?_⟩
  have hj' : key[j] = false := low ⟨j, by omega⟩ hj
  simp [Vector.getD, show j < 16 by omega, hj']

/-- Settles O42: the key chosen is the lowest one down. -/
theorem waitForKeyTakesTheLowestPressed : Obligations.WaitForKeyTakesTheLowestPressed := by
  intro x s k hk low
  refine ⟨_, exec_ldVxK_of_key (keyPick_eq_some_of_lowest hk low) x, ?_, fun r hr => reg_setReg_ne s x r _ hr, rfl, rfl,
    rfl, fun _ => rfl⟩
  have value : (BitVec.ofNat 8 k.val).toNat = k.val := by
    rw [BitVec.toNat_ofNat]
    omega
  exact (congrArg BitVec.toNat (reg_setReg_same s x _)).trans value

/-! ### What an effect leaves unchanged -/

section
variable {i : Instr} {s t : State}

theorem Effect.fault (h : Effect i s t) : t.fault = s.fault := by cases h <;> rfl

theorem Effect.key_eq (h : Effect i s t) : t.key = s.key := by cases h <;> rfl

theorem Effect.decodeErr (h : Effect i s t) : t.decodeErr = s.decodeErr := by cases h <;> rfl

theorem Effect.schedule (h : Effect i s t) : t.schedule = s.schedule := by cases h <;> rfl

theorem Effect.reg (h : Effect i s t) {r : Reg} (hr : mayWriteReg i r = false) : t.reg r = s.reg r := by
  cases h with
  | regs v hv | key x hi hk v hv | rnd x kk hi v hv | draw x y n hi v hv => exact hv r hr
  | _ => rfl

theorem Effect.mem (h : Effect i s t) (hi : ∀ x, i ≠ .ldBVx x ∧ i ≠ .ldMemVx x) : t.mem = s.mem := by
  cases h with
  | store a bs e =>
    rcases e with ⟨x, e⟩ | ⟨x, e⟩
    · exact absurd e (hi x).1
    · exact absurd e (hi x).2
  | _ => rfl

theorem Effect.index_eq (h : Effect i s t) (hi : ∀ nnn x, i ≠ .ldINnn nnn ∧ i ≠ .addIVx x ∧ i ≠ .ldFVx x) :
    t.index = s.index := by
  cases h with
  | index a e =>
    rcases e with ⟨nnn, e⟩ | ⟨x, e⟩ | ⟨x, e⟩
    · exact absurd e (hi nnn 0).1
    · exact absurd e (hi 0 x).2.1
    · exact absurd e (hi 0 x).2.2
  | _ => rfl

theorem Effect.stack (h : Effect i s t) (hi : ∀ nnn, i ≠ .call nnn) : t.stack = s.stack := by
  cases h with
  | call nnn e => exact absurd e (hi nnn)
  | _ => rfl

theorem Effect.sp (h : Effect i s t) (hi : ∀ nnn, i ≠ .call nnn) (hr : i ≠ .ret) : t.sp = s.sp := by
  cases h with
  | call nnn e => exact absurd e (hi nnn)
  | ret e => exact absurd e hr
  | _ => rfl

theorem Effect.fb (h : Effect i s t) (hi : ∀ x y n, i ≠ .drwVxVyN x y n) (hc : i ≠ .cls) : t.fb = s.fb := by
  cases h with
  | draw x y n e => exact absurd e (hi x y n)
  | clear e => exact absurd e hc
  | _ => rfl

theorem Effect.drawPending (h : Effect i s t) (hi : ∀ x y n, i ≠ .drwVxVyN x y n) : t.drawPending = s.drawPending := by
  cases h with
  | draw x y n e => exact absurd e (hi x y n)
  | _ => rfl

theorem Effect.drawPending_of_set (h : Effect i s t) (hs : s.drawPending = true) : t.drawPending = true := by
  cases h with
  | draw => rfl
  | _ => exact hs

theorem Effect.dt (h : Effect i s t) (hi : ∀ x, i ≠ .ldDtVx x) : t.dt = s.dt := by
  cases h with
  | delay x b e => exact absurd e (hi x)
  | _ => rfl

theorem Effect.st (h : Effect i s t) (hi : ∀ x, i ≠ .ldStVx x) : t.st = s.st := by
  cases h with
  | sound x b e => exact absurd e (hi x)
  | _ => rfl

theorem Effect.status (h : Effect i s t) (hi : ∀ x, i ≠ .ldVxK x) : t.status = s.status := by
  cases h with
  | wait x e | key x e => exact absurd e (hi x)
  | _ => rfl

theorem Effect.status_ne_faulted (h : Effect i s t) (hs : s.status ≠ .faulted) : t.status ≠ .faulted := by
  cases h with
  | wait | key => exact nofun
  | _ => exact hs

/-- An effect that transfers no control advances `pc`, or is the wait for a key. -/
theorem Effect.pc (h : Effect i s t) (hi : transfersControl i = false) :
    t.pc = s.pc + 2 ∨
      (∃ x, i = .ldVxK x) ∧ (∀ k : Fin 16, s.key[k] = false) ∧ t = { s with status := .awaitingKey } := by
  cases h with
  | wait x e hk => exact .inr ⟨⟨x, e⟩, keyPick_none_iff_forall.mp hk, rfl⟩
  | ret e | call nnn e => rw [e] at hi; cases hi
  | jump e | skip e => rw [hi] at e; cases e
  | _ => exact .inl rfl

/-! ### The same of an instruction -/

/-- What a fault and every effect keep, an instruction keeps. -/
theorem exec_keeps {α : Type} (f : State → α) (h : exec i s = .next t) (hf : ∀ k n, f (raise k n s) = f s)
    (he : Effect i s t → f t = f s) : f t = f s := by
  rcases answers_of_exec h with ⟨r, -, rfl⟩ | ⟨-, e⟩
  · exact hf r.kind r.info
  · exact he e

theorem effect_of_exec (h : exec i s = .next t) (hf : tabledFault i s = none) : Effect i s t := by
  rcases answers_of_exec h with ⟨f, e, -⟩ | ⟨-, e⟩
  · rw [hf] at e; cases e
  · exact e

theorem eq_raise_of_exec (h : exec i s = .next t) {f : FaultRecord} (hf : tabledFault i s = some f) :
    t = raise f.kind f.info s := by
  rcases answers_of_exec h with ⟨g, e, rfl⟩ | ⟨e, -⟩
  · cases e.symm.trans hf; rfl
  · rw [hf] at e; cases e

/-- An instruction with a tabled fault answers the state that records it. -/
theorem exec_of_tabledFault {k : FaultKind} {n : Nat} (h : tabledFault i s = some ⟨k, n⟩) :
    exec i s = .next (faultedWith k n s) := by
  obtain ⟨t, e, -⟩ := exec_answers i s
  exact e.trans (congrArg _ (eq_raise_of_exec e h))

theorem exec_reg (h : exec i s = .next t) {r : Reg} (hr : mayWriteReg i r = false) : t.reg r = s.reg r :=
  exec_keeps (fun u => u.reg r) h (fun _ _ => rfl) fun e => e.reg hr

theorem exec_decodeErr (h : exec i s = .next t) : t.decodeErr = s.decodeErr :=
  exec_keeps State.decodeErr h (fun _ _ => rfl) Effect.decodeErr

end

/-- Settles O51: a fault keeps every register, an effect those it does not list. -/
theorem registersChangeOnlyAsListed : Obligations.RegistersChangeOnlyAsListed := fun _ _ _ _ h => exec_reg h

/-- Settles O50: with a tabled fault the answer is its record, and no effect records one. -/
theorem faultsAreThoseOfTheTable : Obligations.FaultsAreThoseOfTheTable := by
  refine fun i s t hs h => ⟨fun f hf => eq_raise_of_exec h hf, fun hf => ?_⟩
  have e := effect_of_exec h hf
  exact ⟨e.status_ne_faulted hs, e.fault⟩

/-- Settles O52: a fault keeps `pc`, and every other answer advances it or waits. -/
theorem otherInstructionsAdvanceByTwo : Obligations.OtherInstructionsAdvanceByTwo := by
  intro i s t h hi
  rcases answers_of_exec h with ⟨f, hf, ht⟩ | ⟨-, e⟩
  · exact .inr (.inl ⟨f, hf, ht⟩)
  · exact (e.pc hi).imp_right .inr

/-- Settles O53: each clause from what a fault and an effect leave of its field. -/
theorem eachPieceOfStateHasItsWriters : Obligations.EachPieceOfStateHasItsWriters := by
  intro i s t h
  have memory : (∀ x, i ≠ .ldBVx x ∧ i ≠ .ldMemVx x) → t.mem = s.mem := fun hi =>
    exec_keeps State.mem h (fun _ _ => rfl) fun e => e.mem hi
  refine ⟨fun hi => ⟨memory hi, fun a => by rw [memory hi]⟩, fun hi => ?index, fun hi => ⟨?stack, fun hr => ?sp⟩,
    fun hi => ⟨?drawPending, fun hc => ?fb⟩, fun hs => ?stays, fun hi => ?dt, fun hi => ?st, fun hi => ?rng,
    fun r => exec_reg h, fun hf => ?noFault, fun hf => ?faultPc, ?waitPc, ?key, exec_decodeErr h, ?schedule⟩
  case index => exact exec_keeps State.index h (fun _ _ => rfl) fun e => e.index_eq hi
  case stack => exact exec_keeps State.stack h (fun _ _ => rfl) fun e => e.stack hi
  case sp => exact exec_keeps State.sp h (fun _ _ => rfl) fun e => e.sp hi hr
  case drawPending => exact exec_keeps State.drawPending h (fun _ _ => rfl) fun e => e.drawPending hi
  case fb => exact exec_keeps State.fb h (fun _ _ => rfl) fun e => e.fb hi hc
  case stays =>
    rcases answers_of_exec h with ⟨f, -, rfl⟩ | ⟨-, e⟩
    · exact hs
    · exact e.drawPending_of_set hs
  case dt => exact exec_keeps State.dt h (fun _ _ => rfl) fun e => e.dt hi
  case st => exact exec_keeps State.st h (fun _ _ => rfl) fun e => e.st hi
  case rng => exact (exec_rngIndex h).resolve_right fun ⟨x, kk, e, _⟩ => hi x kk e
  case noFault =>
    have e := effect_of_exec h hf
    exact ⟨e.fault, e.status⟩
  case faultPc =>
    obtain ⟨f, hf⟩ := Option.ne_none_iff_exists'.mp hf
    rw [eq_raise_of_exec h hf, raise_pc]
  case waitPc =>
    rintro ⟨x, rfl⟩ hk
    cases (waitForKeyWithoutAKeyWaits x s hk).symm.trans h
    rfl
  case key => exact exec_keeps State.key h (fun _ _ => rfl) Effect.key_eq
  case schedule => exact exec_keeps State.schedule h (fun _ _ => rfl) Effect.schedule

end Sys2Proof.Machine
end

section
/-! PROOFS. The fields that no instruction reads, and the keys, which three instructions read (10_state.md R16, R17,
R19, R23, R24): two runs that differ in them alone go the same way. -/

namespace Sys2Proof.Machine

/-- Values for the fields that an instruction reads only if it is `SKP`, `SKNP` or `LD Vx,K` (the keys) or never. -/
structure Unread where
  /-- The key levels (R17). -/
  key : Vector Bool 16
  /-- `decode_err` (R24). -/
  decodeErr : Bool
  /-- `draw_pending` (R19). -/
  drawPending : Bool
  /-- `ST` (R16). -/
  st : Byte
  /-- The fault record (R23). -/
  fault : Option FaultRecord

/-- The unread fields of a state. -/
def State.unread (s : State) : Unread := ⟨s.key, s.decodeErr, s.drawPending, s.st, s.fault⟩

/-- The state with other values in the unread fields. -/
def State.withUnread (s : State) (p : Unread) : State :=
  { s with key := p.key, decodeErr := p.decodeErr, drawPending := p.drawPending, st := p.st, fault := p.fault }

theorem withUnread_unread (s : State) : s.withUnread s.unread = s := rfl

/-- What an instruction can write to the unread fields. -/
inductive UnreadWrite where
  /-- Nothing. -/
  | none
  /-- `draw_pending` set (R141). -/
  | draw
  /-- `ST` (R155). -/
  | sound (b : Byte)
  /-- A fault recorded (R174). -/
  | record (f : FaultRecord)

/-- The unread fields after a write. -/
def UnreadWrite.apply : UnreadWrite → Unread → Unread
  | .none, p => p
  | .draw, p => { p with drawPending := true }
  | .sound b, p => { p with st := b }
  | .record f, p => { p with fault := some f }

/-! ### A write and another value of one field -/

section
variable (w : UnreadWrite) (p : Unread)

theorem apply_key (levels : Vector Bool 16) : w.apply { p with key := levels } = { w.apply p with key := levels } := by
  cases w <;> rfl

theorem apply_decodeErr (b : Bool) : w.apply { p with decodeErr := b } = { w.apply p with decodeErr := b } := by
  cases w <;> rfl

theorem apply_drawPending (b : Bool) :
    w.apply p = { w.apply { p with drawPending := b } with drawPending := (w.apply p).drawPending } := by
  cases w <;> rfl

theorem apply_st (b : Byte) : w.apply p = { w.apply { p with st := b } with st := (w.apply p).st } := by
  cases w <;> rfl

theorem apply_fault (f : Option FaultRecord) :
    w.apply p = { w.apply { p with fault := f } with fault := (w.apply p).fault } := by
  cases w <;> rfl

end

/-! ### The same run -/

/-- Does the instruction read the keys (R17)? -/
def ReadsKeys (i : Instr) : Prop := ∃ x, i = .skpVx x ∨ i = .sknpVx x ∨ i = .ldVxK x

/-- The run to `t` is the same run, with the same write, whatever the unread fields hold. -/
def SameRun (i : Instr) (s t : State) : Prop :=
  ∃ w : UnreadWrite, ∀ p, (ReadsKeys i → p.key = s.key) → exec i (s.withUnread p) = .next (t.withUnread (w.apply p))

/-! ### The shared operations -/

theorem withinMemory_withUnread (a : Nat) (s d : State) (w : UnreadWrite) :
    ∃ w' : UnreadWrite, ∀ p, withinMemory a (s.withUnread p) (d.withUnread (w.apply p)) =
      (withinMemory a s d).withUnread (w'.apply p) := by
  rcases Nat.lt_or_ge 0xFFF a with h | h
  · exact ⟨.record ⟨.memBounds, a⟩, fun p => by rw [withinMemory_out h, withinMemory_out h]; rfl⟩
  · exact ⟨w, fun p => by rw [withinMemory_in h, withinMemory_in h]⟩

theorem withKeyIndex_withUnread (k : Nat) (s d : State) :
    ∃ w : UnreadWrite, ∀ p, withKeyIndex k (s.withUnread p) (d.withUnread p) =
      (withKeyIndex k s d).withUnread (w.apply p) := by
  by_cases h : k > 15
  · exact ⟨.record ⟨.keyIndex, k⟩, fun p => by rw [withKeyIndex, withKeyIndex, if_pos h, if_pos h]; rfl⟩
  · exact ⟨.none, fun p => by rw [withKeyIndex, withKeyIndex, if_neg h, if_neg h]; rfl⟩

theorem push_withUnread (v a : Word) (s : State) :
    ∃ w : UnreadWrite, ∀ p, push v a (s.withUnread p) = (push v a s).withUnread (w.apply p) := by
  by_cases h : s.sp.val < 16
  · refine ⟨.none, fun p => ?_⟩
    have hp : (s.withUnread p).sp.val < 16 := h
    rw [push, push, dif_pos h, dif_pos hp]
    rfl
  · refine ⟨.record ⟨.stackOverflow, s.sp.val⟩, fun p => ?_⟩
    have hp : ¬ (s.withUnread p).sp.val < 16 := h
    rw [push, push, dif_neg h, dif_neg hp]
    rfl

theorem pop_withUnread (s : State) :
    ∃ w : UnreadWrite, ∀ p, pop (s.withUnread p) = (pop s).withUnread (w.apply p) := by
  by_cases h : s.sp.val = 0
  · refine ⟨.record ⟨.stackUnderflow, 0⟩, fun p => ?_⟩
    have hp : (s.withUnread p).sp.val = 0 := h
    rw [pop, pop, if_pos h, if_pos hp]
    rfl
  · refine ⟨.none, fun p => ?_⟩
    have hp : ¬ (s.withUnread p).sp.val = 0 := h
    rw [pop, pop, if_neg h, if_neg hp]
    rfl

theorem keyDown_withUnread {s : State} {p : Unread} (h : p.key = s.key) (k : Nat) :
    (s.withUnread p).keyDown k = s.keyDown k := by
  rw [State.keyDown, State.keyDown, ← h]
  rfl

/-! ### Every instruction -/

/-- A run whose answer does not look at the unread fields and does not write them. -/
theorem sameRun_of_commutes {i : Instr} {s t : State} (h : ∀ p, exec i (s.withUnread p) = .next (t.withUnread p)) :
    SameRun i s t := ⟨.none, fun p _ => h p⟩

theorem sameRun_of_answer {i : Instr} {s t : State}
    (h : ∃ w : UnreadWrite, ∀ p, exec i (s.withUnread p) = .next (t.withUnread (w.apply p))) : SameRun i s t :=
  h.imp fun _ hw p _ => hw p

theorem sameRun_withinMemory {i : Instr} {s d : State} {a : Nat}
    (h : ∀ p, exec i (s.withUnread p) = .next (withinMemory a (s.withUnread p) (d.withUnread p))) :
    SameRun i s (withinMemory a s d) :=
  sameRun_of_answer ((withinMemory_withUnread a s d .none).imp fun _ hw p => (h p).trans (congrArg _ (hw p)))

/-- A key skip is the same run when its key is at the same level. -/
theorem sameRun_withKeyIndex {i : Instr} (hi : ReadsKeys i) {s d : State} {k : Nat}
    (h : ∀ p, (s.withUnread p).keyDown k = s.keyDown k →
      exec i (s.withUnread p) = .next (withKeyIndex k (s.withUnread p) (d.withUnread p))) :
    SameRun i s (withKeyIndex k s d) :=
  (withKeyIndex_withUnread k s d).imp fun _ hw p hp =>
    (h p (keyDown_withUnread (hp hi) k)).trans (congrArg _ (hw p))

theorem sameRun_drwVxVyN {x y : Reg} {n : Nibble} {s t : State} (h : exec (.drwVxVyN x y n) s = .next t) :
    SameRun (.drwVxVyN x y n) s t := by
  by_cases h0 : n.toNat = 0
  · rw [exec, execDrwVxVyN, if_pos h0] at h
    cases h
    refine ⟨.draw, fun p _ => ?_⟩
    rw [exec, execDrwVxVyN, if_pos h0]
    rfl
  · rw [exec, execDrwVxVyN, if_neg h0] at h
    cases h
    obtain ⟨w, hw⟩ := withinMemory_withUnread (s.dataAddr (n.toNat - 1)) s (drawn x y n s) .draw
    refine ⟨w, fun p _ => ?_⟩
    rw [exec, execDrwVxVyN, if_neg h0, ← hw]
    rfl

theorem sameRun_ldVxK {x : Reg} {s t : State} (h : exec (.ldVxK x) s = .next t) : SameRun (.ldVxK x) s t := by
  refine ⟨.none, fun p hp => ?_⟩
  have hk : (s.withUnread p).key = s.key := hp ⟨x, .inr (.inr rfl)⟩
  cases e : keyPick s.key with
  | none =>
    cases (exec_ldVxK_of_no_key e x).symm.trans h
    exact exec_ldVxK_of_no_key (hk.symm ▸ e) x
  | some k =>
    cases (exec_ldVxK_of_key e x).symm.trans h
    exact exec_ldVxK_of_key (hk.symm ▸ e) x

theorem sameRun {i : Instr} {s t : State} (h : exec i s = .next t) : SameRun i s t := by
  cases i with
  | ret => cases h; exact sameRun_of_answer ((pop_withUnread s).imp fun _ hw p => congrArg _ (hw p))
  | call nnn =>
    cases h
    exact sameRun_of_answer ((push_withUnread s.npc (zextAddr nnn) s).imp fun _ hw p => congrArg _ (hw p))
  | drwVxVyN x y n => exact sameRun_drwVxVyN h
  | skpVx x =>
    cases h
    refine sameRun_withKeyIndex ⟨x, .inl rfl⟩ fun p hk => ?_
    rw [← hk]
    rfl
  | sknpVx x =>
    cases h
    refine sameRun_withKeyIndex ⟨x, .inr (.inl rfl)⟩ fun p hk => ?_
    rw [← hk]
    rfl
  | ldVxK x => exact sameRun_ldVxK h
  | ldStVx x => cases h; exact ⟨.sound (s.reg x), fun _ _ => rfl⟩
  | ldBVx x | ldMemVx x | ldVxMem x =>
    cases h
    exact sameRun_withinMemory fun _ => rfl
  | _ => cases h; exact sameRun_of_commutes fun _ => rfl

/-! ### One field at a time -/

/-- The write of a run is that of its own two states. -/
theorem unread_of_run {i : Instr} {s t : State} {w : UnreadWrite} (h : exec i s = .next t)
    (hw : ∀ p, (ReadsKeys i → p.key = s.key) → exec i (s.withUnread p) = .next (t.withUnread (w.apply p))) :
    t.unread = w.apply s.unread := by
  have e := hw s.unread fun _ => rfl
  rw [withUnread_unread, h] at e
  exact congrArg State.unread (Host.Outcome.next.inj e)

/-- Settles O54: no write depends on the keys or changes them. -/
theorem keysReachOnlyTheKeyInstructions : Obligations.KeysReachOnlyTheKeyInstructions := by
  intro i s t levels h hi
  obtain ⟨w, hw⟩ := sameRun h
  have noKeys : ¬ ReadsKeys i := fun ⟨x, e⟩ => by
    obtain ⟨h1, h2, h3⟩ := hi x
    rcases e with e | e | e
    · exact h1 e
    · exact h2 e
    · exact h3 e
  have run := hw { s.unread with key := levels } fun e => absurd e noKeys
  rw [apply_key, ← unread_of_run h hw] at run
  exact run

/-- Settles O55: a write commutes with another value of `decode_err`, and with one of the other three up to that
field. -/
theorem outputsAreReadByNoInstruction : Obligations.OutputsAreReadByNoInstruction := by
  intro i s t h
  obtain ⟨w, hw⟩ := sameRun h
  have ht : t = t.withUnread (w.apply s.unread) := by rw [← unread_of_run h hw, withUnread_unread]
  refine ⟨fun b => ?decodeErr, fun b => ⟨_, hw { s.unread with drawPending := b } fun _ => rfl, ?drawPending⟩,
    fun b => ⟨_, hw { s.unread with st := b } fun _ => rfl, ?st⟩,
    fun f => ⟨_, hw { s.unread with fault := f } fun _ => rfl, ?fault⟩⟩
  case decodeErr =>
    have run := hw { s.unread with decodeErr := b } fun _ => rfl
    rw [apply_decodeErr, ← unread_of_run h hw] at run
    exact run
  case drawPending =>
    rw [ht]
    exact congrArg t.withUnread (apply_drawPending w s.unread b)
  case st =>
    rw [ht]
    exact congrArg t.withUnread (apply_st w s.unread b)
  case fault =>
    rw [ht]
    exact congrArg t.withUnread (apply_fault w s.unread f)

end Sys2Proof.Machine
end

section
/-! PROOFS. The step, the agents and the reset (10_state.md R10, R26, R27; 20_memory.md R44, R56; 30_encoding.md R61,
R67, R68, R71; 60_exceptions.md R171, R175, R177 to R181). -/

namespace Sys2Proof.Machine

/-! ### The core's step (R61, R67, R68, R71) -/

/-- Settles O7: the two bytes stand side by side in the word. -/
theorem fetchReadsHighByteFirst : Obligations.FetchReadsHighByteFirst := fun _ => toNat_append_eq _ _

section
variable {s : State}

theorem executeOneInstruction_of_faulted (h : s.status = .faulted) : executeOneInstruction s = .next s := by
  rw [executeOneInstruction, if_pos h]

theorem executeOneInstruction_of_fetchBounds (hf : s.status ≠ .faulted) (hp : s.pc.toNat > 0xFFE) :
    executeOneInstruction s = .next (raise .fetchBounds s.pc.toNat s) := by
  rw [executeOneInstruction, if_neg hf, if_pos hp]

theorem executeOneInstruction_of_decode (hf : s.status ≠ .faulted) (hp : s.pc.toNat ≤ 0xFFE) {i : Instr}
    (hd : decodeWord (fetchWord s) = some i) : executeOneInstruction s = exec i s := by
  rw [executeOneInstruction, if_neg hf, if_neg (by omega), hd]

theorem executeOneInstruction_of_unrecognised (hf : s.status ≠ .faulted) (hp : s.pc.toNat ≤ 0xFFE)
    (hu : Unrecognised (fetchWord s)) : executeOneInstruction s =
      unrecognised Config.unknownOpcodePolicy Config.nearMissPolicy (fetchWord s) s := by
  rw [executeOneInstruction, if_neg hf, if_neg (by omega), decodeWord_eq_none_iff_unrecognised.mpr hu]

end

/-- Settles O8: the core's turn comes with the schedule empty, or by a `step` action; `rest` is read by neither the
fetch nor the checks before it. -/
theorem stepRunsTheDecodedInstruction : Obligations.StepRunsTheDecodedInstruction := by
  refine fun s i hf hp hd => ⟨fun h => ?_, fun rest h => ?_⟩
  · rw [step_of_nil h, executeOneInstruction_of_decode hf hp hd]
  · rw [step_of_cons h]
    exact executeOneInstruction_of_decode (s := { s with schedule := rest }) hf hp hd

/-- Settles O9: `raise` writes the two fields that the statement names. -/
theorem fetchOutsideMemoryFaults : Obligations.FetchOutsideMemoryFaults := fun _ hs hf hp =>
  (step_of_nil hs).trans (executeOneInstruction_of_fetchBounds hf hp)

/-- Settles O10: a word without a row is refused or a no-op by whether it is a near miss. -/
theorem unrecognisedWordIsANoOpButANearMissIsRefused : Obligations.UnrecognisedWordIsANoOpButANearMissIsRefused := by
  intro s hs hf hp hu
  rw [step_of_nil hs, executeOneInstruction_of_unrecognised hf hp hu]
  rcases unrecognised_cases (fetchWord s) s with ⟨hm, e⟩ | ⟨hm, e⟩
  · exact ⟨fun h => absurd (hm.symm.trans h) nofun, fun _ => e⟩
  · exact ⟨fun _ => e, fun h => absurd (hm.symm.trans h) nofun⟩

theorem unrecognised_refuse_of_nearMiss {op : Word} (h : isNearMiss op = true) (p : Config.UnknownOpcodePolicy)
    (s : State) : unrecognised p .refuse op s = .refused (.nearMissWord op) := by
  unfold unrecognised
  rw [h]

theorem unrecognised_refuse_of_other {op : Word} (h : isNearMiss op = false) (p : Config.UnknownOpcodePolicy)
    (s : State) : unrecognised p .refuse op s = unrecognised p .followMap op s := by
  unfold unrecognised
  rw [h]
  cases p <;> rfl

/-- Settles O11: with the strict map alone the answer is the policy's by definition, and a refusal needs a near miss. -/
theorem policiesForUnknownWords : Obligations.PoliciesForUnknownWords := by
  refine fun op s => ⟨rfl, rfl, fun h p => unrecognised_refuse_of_nearMiss h p s, fun h => ?_⟩
  rw [unrecognised_refuse_of_other h, unrecognised_refuse_of_other h]
  exact ⟨rfl, rfl⟩

/-! ### The timers (R177, R178) -/

theorem toNat_tickDown (t : Byte) : (tickDown t).toNat = t.toNat - 1 := by
  rw [tickDown]
  split
  · bv_omega
  · omega

/-- Settles O16: each timer's decrement as a number. -/
theorem tickDecrementsBothTimers : Obligations.TickDecrementsBothTimers := fun s _ h =>
  ⟨_, step_of_cons h, toNat_tickDown s.dt, toNat_tickDown s.st, rfl, rfl, fun _ => rfl⟩

/-- Settles O17, by induction on the number of ticks. -/
theorem timerCountsDownToZeroAndStays : Obligations.TimerCountsDownToZeroAndStays := by
  intro s n
  induction n with
  | zero => exact ⟨rfl, rfl⟩
  | succ n ih =>
    rw [Function.iterate_succ_apply', tickTimers_dt, tickTimers_st, toNat_tickDown, toNat_tickDown, ih.1, ih.2,
      Nat.sub_sub, Nat.sub_sub]
    exact ⟨rfl, rfl⟩

/-! ### The other agents -/

/-- Settles O18: the two actions as they are defined. -/
theorem hostActionsWriteOnlyTheirOwnState : Obligations.HostActionsWriteOnlyTheirOwnState := fun _ _ =>
  ⟨fun _ => step_of_cons, step_of_cons⟩

/-- Settles O12: the core's step answers its own state, and the other agents write their own fields. -/
theorem faultedIsTerminal : Obligations.FaultedIsTerminal := by
  refine fun s hf => ⟨fun h => (step_of_nil h).trans (executeOneInstruction_of_faulted hf), fun e rest h hr => ?_⟩
  rw [step_of_cons h]
  cases e with
  | step => exact ⟨_, executeOneInstruction_of_faulted (s := { s with schedule := rest }) hf, hf, rfl, rfl, rfl⟩
  | tick => exact ⟨_, rfl, hf, rfl, rfl, rfl⟩
  | keys levels => exact ⟨_, rfl, hf, rfl, rfl, rfl⟩
  | present => exact ⟨_, rfl, hf, rfl, rfl, rfl⟩
  | reset seed program => exact absurd rfl (hr seed program)

/-! ### The reset (R27, R56, R200) -/

theorem resetWith_of_fits {program : List Byte} (h : program.length ≤ 3584) (seed : Nat) (s : State) :
    resetWith seed program s = .next (boot seed program s) := by
  have fits : programFits program = true := decide_eq_true h
  rw [resetWith, if_pos fits]

theorem resetWith_of_oversized {program : List Byte} (h : program.length > 3584) (seed : Nat) (s : State) :
    resetWith seed program s = .fault (.programTooLarge program.length) := by
  have tooLong : ¬ program.length ≤ progMax := Nat.not_le.mpr h
  rw [resetWith, programFits, decide_eq_false tooLong, if_neg Bool.false_ne_true]

theorem wf_boot_mem {program : List Byte} (h : program.length ≤ 3584) : Memory.wf (Memory.writeBytes [] progBase program) :=
  wf_writeBytes program [] progBase wf_nil (by rw [progBase]; omega)

/-- Settles O14: the image is a run of bytes stored into the empty memory. -/
theorem resetActionLoadsTheProgram : Obligations.ResetActionLoadsTheProgram := by
  intro s seed program rest h hl
  rw [step_of_cons h]
  exact ⟨_, resetWith_of_fits hl seed _, fun k hk => read_writeBytes_inside program [] progBase k hk,
    fun a ha => read_writeBytes_outside program [] progBase a ha, wf_boot_mem hl, rfl, rfl⟩

/-- Settles O15: the loader's check. -/
theorem oversizedProgramIsRefused : Obligations.OversizedProgramIsRefused := fun _ seed _ _ h hl =>
  (step_of_cons h).trans (resetWith_of_oversized hl seed _)

/-- Past the font an unlisted byte is 0 (R27, R42). -/
theorem unlistedByte_of_ge {a : Nat} (h : 80 ≤ a) : unlistedByte a = 0 :=
  List.getD_eq_default _ _ h

/-- Settles O13: the constant fields by evaluation, each vector by its common value, memory by the font's bytes. -/
theorem resetHoldsTheListedValues : Obligations.ResetHoldsTheListedValues := by
  refine ⟨fun r => ?reg, rfl, rfl, rfl, rfl, rfl, fun k _ => ?font, fun a ha => unlistedByte_of_ge ha, rfl,
    fun k hk => ?key, fun r c _ _ => ?pixel, rfl, rfl, rfl, rfl, fun k _ hk => ?slot, rfl⟩
  case reg => simp [State.reg, State.reset]
  case font => exact congrArg (Config.font.data.getD · 0) (Nat.add_sub_cancel_left Config.font.base k)
  case key => simp [State.keyDown, State.reset, Vector.getD, hk]
  case pixel => simp [pixel, State.reset]
  case slot => simp [State.stackSlot, State.reset, Vector.getD, show k - 1 < 16 by omega]

end Sys2Proof.Machine
end

section
/-! PROOFS. What every step keeps: the invariant of 10_state.md R28, the finished state of 70_reset_and_hazards.md R204,
and `decode_err` once set (10_state.md R24). -/

namespace Sys2Proof.Machine

/-! ### The invariant at reset -/

theorem rngTableSize_pos : 0 < Config.rngTableSize := Nat.succ_pos _

theorem inv_boot {program : List Byte} (h : program.length ≤ 3584) (seed : Nat) (s : State) :
    (boot seed program s).Inv := by
  refine ⟨wf_boot_mem h, Nat.mod_lt _ rngTableSize_pos, fun k h1 h2 => ?_, ⟨⟨nofun, nofun⟩, nofun⟩, nofun⟩
  have : k ≤ 0 := h2
  omega

/-- Settles O47: the reset state is the machine created with the empty image. -/
theorem invariantHoldsAtReset : Obligations.InvariantHoldsAtReset :=
  inv_boot (program := []) (Nat.zero_le _) Config.rngSeed State.reset

/-! ### The invariant and a fault -/

theorem info_lt_of_ite {c : Prop} [Decidable c] {k : FaultKind} {n : Nat} {f : FaultRecord}
    (h : (if c then some { kind := k, info := n } else none) = some f) (hn : n < 2 ^ 17) : f.info < 2 ^ 17 := by
  split at h
  · cases h; exact hn
  · cases h

theorem tabledFault_info_lt {i : Instr} {s : State} {f : FaultRecord} (h : tabledFault i s = some f) :
    f.info < 2 ^ 17 := by
  have hI := s.index.isLt
  cases i with
  | ret | call nnn => exact info_lt_of_ite h (by decide)
  | skpVx x | sknpVx x => exact info_lt_of_ite h (by omega)
  | drwVxVyN x y n => exact info_lt_of_ite h (by omega)
  | ldBVx x => exact info_lt_of_ite h (by omega)
  | ldMemVx x | ldVxMem x => exact info_lt_of_ite h (by omega)
  | _ => cases h

theorem inv_raise {s : State} (h : s.Inv) {n : Nat} (hn : n < 2 ^ 17) (k : FaultKind) : (raise k n s).Inv := by
  obtain ⟨hm, hr, hs, -, -⟩ := h
  refine ⟨hm, hr, hs, ⟨⟨fun _ => rfl, fun _ => rfl⟩, fun f hf => ?_⟩, nofun⟩
  cases hf
  exact hn

/-! ### The invariant and an effect, clause by clause -/

section
variable {i : Instr} {s t : State}

theorem Effect.wf (h : Effect i s t) (hm : s.mem.wf) : t.mem.wf := by
  cases h with
  | store a bs hi ha => exact wf_writeBytes bs s.mem a hm ha
  | _ => exact hm

theorem Effect.rngIndex_lt (h : Effect i s t) (hr : s.rngIndex < Config.rngTableSize) :
    t.rngIndex < Config.rngTableSize := by
  rcases h.rngIndex with e | ⟨x, kk, -, e⟩
  · rw [e]; exact hr
  · rw [e]; exact Nat.mod_lt _ rngTableSize_pos

/-- A `CALL` that was fetched pushes a return address; the slots below are the old ones. -/
theorem Effect.stackSound (h : Effect i s t) (hs : s.stackSound) (hp : s.pc.toNat ≤ 0xFFE) : t.stackSound := by
  cases h with
  | call nnn hi hsp =>
    intro k h1 h2
    have h2 : k ≤ s.sp.val + 1 := h2
    have bounds : 2 ≤ (if k = s.sp.val + 1 then s.npc else s.stackSlot k).toNat ∧
        (if k = s.sp.val + 1 then s.npc else s.stackSlot k).toNat ≤ 0x1000 := by
      split
      · rw [State.npc]
        bv_omega
      · exact hs k h1 (by omega)
    rw [← stackSlot_set s s.npc k s.sp.val hsp h1] at bounds
    exact bounds
  | ret hi hsp =>
    intro k h1 h2
    have h2 : k ≤ s.sp.val - 1 := h2
    exact hs k h1 (by omega)
  | _ => exact hs

/-- From a state that is not Faulted an effect records no fault. -/
theorem Effect.faultSound (h : Effect i s t) (hf : s.faultSound) (hs : s.status ≠ .faulted) : t.faultSound := by
  obtain ⟨iff, bound⟩ := hf
  have none : ¬ s.fault.isSome = true := fun e => hs (iff.mpr e)
  refine ⟨⟨fun e => absurd e (h.status_ne_faulted hs), fun e => absurd (h.fault ▸ e) none⟩, fun f e => ?_⟩
  exact bound f (h.fault ▸ e)

/-- An effect leaves the machine waiting only at a `LD Vx,K`, and there it changes only the status. -/
theorem Effect.waits (h : Effect i s t) (ht : t.status = .awaitingKey) (hw : s.status = .awaitingKey → ∃ x, i = .ldVxK x) :
    (∃ x, i = .ldVxK x) ∧ t = { s with status := .awaitingKey } := by
  cases h with
  | wait x e => exact ⟨⟨x, e⟩, rfl⟩
  | key => cases ht
  | jump e | skip e => obtain ⟨x, rfl⟩ := hw ht; cases e
  | ret e | clear e | call nnn e | rnd x kk e | draw x y n e | delay x b e | sound x b e =>
    obtain ⟨x, rfl⟩ := hw ht
    cases e
  | regs v hv e => obtain ⟨x, hx⟩ := hw ht; exact absurd hx (e x)
  | index a e => obtain ⟨x, rfl⟩ := hw ht; rcases e with ⟨_, e⟩ | ⟨_, e⟩ | ⟨_, e⟩ <;> cases e
  | store a bs e => obtain ⟨x, rfl⟩ := hw ht; rcases e with ⟨_, e⟩ | ⟨_, e⟩ <;> cases e

theorem Effect.waitSound (h : Effect i s t) (hw : s.waitSound) (hp : s.pc.toNat ≤ 0xFFE)
    (hd : decodeWord (fetchWord s) = some i) : t.waitSound := by
  intro ht
  have waiting : s.status = .awaitingKey → ∃ x, i = .ldVxK x := fun e =>
    (hw e).2.imp fun x hx => Option.some.inj (hd.symm.trans hx)
  obtain ⟨⟨x, rfl⟩, rfl⟩ := h.waits ht waiting
  exact ⟨hp, x, hd⟩

/-- A decoded instruction keeps the invariant. -/
theorem inv_exec (hs : s.Inv) (hf : s.status ≠ .faulted) (hp : s.pc.toNat ≤ 0xFFE)
    (hd : decodeWord (fetchWord s) = some i) (h : exec i s = .next t) : t.Inv := by
  rcases answers_of_exec h with ⟨f, e, rfl⟩ | ⟨-, e⟩
  · exact inv_raise hs (tabledFault_info_lt e) f.kind
  · obtain ⟨hm, hr, hk, hq, hw⟩ := hs
    exact ⟨e.wf hm, e.rngIndex_lt hr, e.stackSound hk hp, e.faultSound hq hf, e.waitSound hw hp hd⟩

end

/-! ### The invariant and each agent -/

theorem inv_executeOneInstruction {s t : State} (hs : s.Inv) (h : executeOneInstruction s = .next t) : t.Inv := by
  rcases executeOneInstruction_cases s with
    ⟨-, e⟩ | ⟨-, -, e⟩ | ⟨hf, hp, i, hd, e⟩ | ⟨-, -, -, -, e⟩ | ⟨-, -, hd, -, e⟩
  · cases e.symm.trans h
    exact hs
  · cases e.symm.trans h
    exact inv_raise hs (by omega) _
  · exact inv_exec hs hf hp hd (e.symm.trans h)
  · cases e.symm.trans h
  · cases e.symm.trans h
    obtain ⟨hm, hr, hk, hq, hw⟩ := hs
    refine ⟨hm, hr, hk, hq, fun ha => ?_⟩
    obtain ⟨-, x, hx⟩ := hw ha
    cases hd.symm.trans hx

theorem inv_act {e : HostAction} {s t : State} (hs : s.Inv) (h : act e s = .next t) : t.Inv := by
  cases e with
  | step => exact inv_executeOneInstruction hs h
  | tick | keys levels | present => cases h; exact hs
  | reset seed program =>
    rcases Nat.lt_or_ge 3584 program.length with hl | hl
    · cases (resetWith_of_oversized hl seed s).symm.trans h
    · cases (resetWith_of_fits hl seed s).symm.trans h
      exact inv_boot hl seed s

/-- Settles O48: the core's step by the cases of the instruction it runs; the other agents write no field that the
invariant reads, and a reset creates the machine anew. -/
theorem everyStepKeepsTheInvariant : Obligations.EveryStepKeepsTheInvariant := by
  intro s t hs h
  cases hq : s.schedule with
  | nil => exact inv_executeOneInstruction hs ((step_of_nil hq).symm.trans h)
  | cons e rest => exact inv_act (s := { s with schedule := rest }) hs ((step_of_cons hq).symm.trans h)

/-! ### A step that is no reset -/

/-- A step that is no reset is the core's, with nothing scheduled or as the next action, or another agent's action. -/
theorem step_of_no_reset {s t : State} (hr : ∀ seed program rest, s.schedule ≠ .reset seed program :: rest)
    (h : step s = .next t) :
    (s.schedule = [] ∧ executeOneInstruction s = .next t) ∨
    ∃ rest, executeOneInstruction { s with schedule := rest } = .next t ∨ t = tickTimers { s with schedule := rest } ∨
      (∃ levels, t = setKeys levels { s with schedule := rest }) ∨ t = presented { s with schedule := rest } := by
  cases hq : s.schedule with
  | nil => exact .inl ⟨rfl, (step_of_nil hq).symm.trans h⟩
  | cons e rest =>
    have h := (step_of_cons hq).symm.trans h
    refine .inr ⟨rest, ?_⟩
    cases e with
    | step => exact .inl h
    | tick => cases h; exact .inr (.inl rfl)
    | keys levels => cases h; exact .inr (.inr (.inl ⟨levels, rfl⟩))
    | present => cases h; exact .inr (.inr (.inr rfl))
    | reset seed program => exact absurd hq (hr seed program rest)

/-! ### The finished state (R204, D20) -/

/-- The word of a jump to a `pc` inside memory. -/
theorem encode_jp_self {a : Word} (h : a.toNat ≤ 0xFFE) : encode (.jp (a.setWidth 12)) = (0x1000 : Word) ||| a := by
  apply BitVec.eq_of_toNat_eq
  have low : a.toNat < 2 ^ 12 := by omega
  rw [encode, toNat_formNNN, BitVec.toNat_setWidth, BitVec.toNat_or, Nat.mod_eq_of_lt low]
  exact Nat.shiftLeft_add_eq_or_of_lt low 1

theorem executeOneInstruction_of_finished {s : State} (h : s.finished) : executeOneInstruction s = .next s := by
  obtain ⟨hr, hp, hw⟩ := h
  have hd : decodeWord (fetchWord s) = some (.jp (s.pc.setWidth 12)) := by
    rw [hw, ← encode_jp_self hp, decodeWord_encode]
  have target : zextAddr (s.pc.setWidth 12) = s.pc := by
    apply BitVec.eq_of_toNat_eq
    simp only [zextAddr, BitVec.toNat_setWidth]
    omega
  rw [executeOneInstruction_of_decode (by rw [hr]; nofun) hp hd, exec, execJp, target]
  rfl

/-- Settles O56: the core's step answers its own state, and the other agents write no field that `finished` reads. -/
theorem finishedStaysFinished : Obligations.FinishedStaysFinished := by
  intro s t hs hr h
  rcases step_of_no_reset hr h with ⟨-, h⟩ | ⟨rest, h | rfl | ⟨levels, rfl⟩ | rfl⟩
  · cases (executeOneInstruction_of_finished hs).symm.trans h
    exact ⟨hs, rfl⟩
  · cases (executeOneInstruction_of_finished (s := { s with schedule := rest }) hs).symm.trans h
    exact ⟨hs, rfl⟩
  · exact ⟨hs, rfl⟩
  · exact ⟨hs, rfl⟩
  · exact ⟨hs, rfl⟩

/-! ### `decode_err` is sticky (R24, D3) -/

theorem executeOneInstruction_decodeErr {s t : State} (hs : s.decodeErr = true)
    (h : executeOneInstruction s = .next t) : t.decodeErr = true := by
  rcases executeOneInstruction_cases s with
    ⟨-, e⟩ | ⟨-, -, e⟩ | ⟨-, -, i, -, e⟩ | ⟨-, -, -, -, e⟩ | ⟨-, -, -, -, e⟩
  · cases e.symm.trans h; exact hs
  · cases e.symm.trans h; exact hs
  · exact (exec_decodeErr (e.symm.trans h)).trans hs
  · cases e.symm.trans h
  · cases e.symm.trans h; rfl

/-- Settles O57: an instruction keeps `decode_err`, an unrecognised word sets it, and the other agents do not write it. -/
theorem decodeErrorStaysUntilReset : Obligations.DecodeErrorStaysUntilReset := by
  intro s t hs hr h
  rcases step_of_no_reset hr h with ⟨-, h⟩ | ⟨rest, h | rfl | ⟨levels, rfl⟩ | rfl⟩
  · exact executeOneInstruction_decodeErr hs h
  · exact executeOneInstruction_decodeErr (s := { s with schedule := rest }) hs h
  · exact hs
  · exact hs
  · exact hs

end Sys2Proof.Machine
end

section
/-! PROOFS. What each instruction does, in the order of the spec's files: control transfer (40_control.md), the ALU
(41_alu.md), the index register and the memory transfers (42_index_memory.md), keys, timers and the random source
(44_keys_timers_random.md). -/

namespace Sys2Proof.Machine

/-! ### Control transfer (40_control.md) -/

theorem writesPc_jump (s : State) (a : Word) : WritesPc s (s.jump a) a := ⟨rfl, rfl, fun _ => rfl⟩

theorem writesPc_skipIf (s : State) (c : Bool) : WritesPc s (s.skipIf c) (if c then s.pc + 4 else s.pc + 2) := by
  refine ⟨?_, rfl, fun _ => rfl⟩
  rw [skipIf_pc, BitVec.add_assoc]
  rfl

@[simp] theorem toNat_zextAddr (a : Addr12) : (zextAddr a).toNat = a.toNat := by
  have := a.isLt
  rw [zextAddr, BitVec.toNat_setWidth, Nat.mod_eq_of_lt (by omega)]

@[simp] theorem toNat_zextByte (b : Byte) : (zextByte b).toNat = b.toNat := by
  have := b.isLt
  rw [zextByte, BitVec.toNat_setWidth, Nat.mod_eq_of_lt (by omega)]

/-- The call with a free slot, as a state (R82). -/
theorem exec_call_of_free (nnn : Addr12) {s : State} (h : s.sp.val < 16) :
    exec (.call nnn) s = .next { s with
      sp := ⟨s.sp.val + 1, by omega⟩, stack := s.stack.set s.sp.val (s.pc + 2) h, pc := zextAddr nnn } := by
  rw [exec, execCall, push, dif_pos h]
  rfl

/-- The return with an address held, as a state (R80). -/
theorem exec_ret_of_held {s : State} (h : 1 ≤ s.sp.val) :
    exec .ret s = .next { s with pc := s.stackSlot s.sp.val, sp := ⟨s.sp.val - 1, by omega⟩ } := by
  rw [exec, execRet, pop, if_neg (by omega)]

/-- Settles O19: the state that `RET` answers. -/
theorem retTakesTheTopSlot : Obligations.RetTakesTheTopSlot := fun _ h =>
  ⟨_, exec_ret_of_held h, rfl, rfl, rfl, fun _ => rfl⟩

/-- Settles O20: the state that `CALL` answers, slot by slot. -/
theorem callPushesTheFollowingAddress : Obligations.CallPushesTheFollowingAddress := by
  intro nnn s h
  have slot := fun k => stackSlot_set s (s.pc + 2) k s.sp.val h
  refine ⟨_, exec_call_of_free nnn h, toNat_zextAddr nnn, rfl, ?_, fun k h1 _ hk => ?_, rfl, fun _ => rfl⟩
  · exact (slot _ (by omega)).trans (if_pos rfl)
  · exact (slot k h1).trans (if_neg hk)

/-- Settles O21: the table's rows on the call stack. -/
theorem fullOrEmptyStackFaults : Obligations.FullOrEmptyStackFaults := fun _ =>
  ⟨fun h _ => exec_of_tabledFault (if_pos h), fun h => exec_of_tabledFault (if_pos h)⟩

/-- Settles O22: the return takes the slot that the call has just written. -/
theorem callThenRetComesBack : Obligations.CallThenRetComesBack := by
  intro nnn s h
  have slot := fun k => stackSlot_set s (s.pc + 2) k s.sp.val h
  refine ⟨_, _, exec_call_of_free nnn h, exec_ret_of_held (Nat.le_add_left 1 _), ?_, rfl, fun k h1 h2 => ?_, rfl,
    fun _ => rfl⟩
  · exact (slot (s.sp.val + 1) (by omega)).trans (if_pos rfl)
  · exact (slot k h1).trans (if_neg (by omega))

/-- Settles O23: the sum of a 12-bit address and a byte does not reach 2^16. -/
theorem jumpsGoToTheirTarget : Obligations.JumpsGoToTheirTarget := by
  refine fun nnn s => ⟨⟨_, rfl, toNat_zextAddr nnn, writesPc_jump s _⟩, ⟨_, rfl, ?_, writesPc_jump s _⟩⟩
  have := nnn.isLt
  have := (s.reg 0).isLt
  rw [jump_pc, BitVec.toNat_add, toNat_zextAddr, toNat_zextByte, Nat.mod_eq_of_lt (by omega)]

/-- A skip on equality, and one on inequality, by the proposition compared. -/
theorem writesPc_skipIf_beq (s : State) (a b : Byte) :
    WritesPc s (s.skipIf (a == b)) (if a = b then s.pc + 4 else s.pc + 2) := by
  simpa only [beq_iff_eq] using writesPc_skipIf s (a == b)

theorem writesPc_skipIf_bne (s : State) (a b : Byte) :
    WritesPc s (s.skipIf (a != b)) (if a = b then s.pc + 2 else s.pc + 4) := by
  simpa only [bne_iff_ne, ne_eq, ite_not] using writesPc_skipIf s (a != b)

/-- Settles O24: two skips on equality and two on inequality. -/
theorem compareSkipsGoTwoOrFour : Obligations.CompareSkipsGoTwoOrFour := fun x y kk s =>
  ⟨⟨_, rfl, writesPc_skipIf_beq s (s.reg x) kk⟩, ⟨_, rfl, writesPc_skipIf_bne s (s.reg x) kk⟩,
    ⟨_, rfl, writesPc_skipIf_beq s (s.reg x) (s.reg y)⟩, ⟨_, rfl, writesPc_skipIf_bne s (s.reg x) (s.reg y)⟩⟩

/-! ### The ALU (41_alu.md) -/

/-- The effect of an instruction that writes a flag, then one register, and advances (R111). -/
theorem writesRegAndFlag_writeFlagged (s : State) (x : Reg) (f b : Byte) :
    WritesRegAndFlag s (s.writeFlagged x f b) x b.toNat f.toNat := by
  have reg := fun q => reg_writeFlagged s x q f b
  refine ⟨?_, fun hx => ?_, fun r hx hf => ?_, rfl, rfl, fun _ => rfl⟩
  · rw [reg, if_pos rfl]
  · rw [reg, if_neg hx.symm, vF, if_pos rfl]
  · rw [reg, if_neg hx, vF, if_neg hf]

theorem toNat_flagByte (c : Prop) [Decidable c] : (flagByte (decide c)).toNat = if c then 1 else 0 := by
  by_cases h : c <;> simp [flagByte, h]

theorem toNat_sub_byte (a b : Byte) : (a - b).toNat = (a.toNat + 256 - b.toNat) % 256 := by
  bv_omega

/-- Settles O26: a register write of the sum. -/
theorem addImmediateWrapsWithoutFlag : Obligations.AddImmediateWrapsWithoutFlag := fun x kk s =>
  ⟨_, rfl, BitVec.toNat_add (s.reg x) kk ▸ writesReg_setReg_advance s x (s.reg x + kk)⟩

/-- The destination of a register write that advances, with the number it holds. -/
theorem writesReg_of_setReg_advance (s : State) (x : Reg) (b : Byte) :
    WritesReg s (s.setReg x b).advance x ((s.setReg x b).advance.reg x).toNat := by
  rw [reg_advance, reg_setReg_same]
  exact writesReg_setReg_advance s x b

/-- Settles O27: register writes, the bits of the result one by one. -/
theorem assignAndLogicWriteNoFlag : Obligations.AssignAndLogicWriteNoFlag := by
  refine fun x y s => ⟨⟨_, rfl, writesReg_setReg_advance s x _⟩, ⟨_, rfl, writesReg_of_setReg_advance s x _, fun b _ => ?_⟩,
    ⟨_, rfl, writesReg_of_setReg_advance s x _, fun b _ => ?_⟩, ⟨_, rfl, writesReg_of_setReg_advance s x _, fun b _ => ?_⟩⟩
  · rw [reg_advance, reg_setReg_same, BitVec.getLsbD_or]
  · rw [reg_advance, reg_setReg_same, BitVec.getLsbD_and]
  · rw [reg_advance, reg_setReg_same, BitVec.getLsbD_xor]

/-- Settles O28: a flagged write of the sum and its carry. -/
theorem addRegistersSetsCarry : Obligations.AddRegistersSetsCarry := by
  intro x y s
  refine ⟨_, rfl, ?_⟩
  rw [← toNat_flagByte, ← BitVec.toNat_add]
  exact writesRegAndFlag_writeFlagged s x _ _

/-- Settles O29: flagged writes of the differences and of the strict comparisons. -/
theorem subtractionsSetStrictFlag : Obligations.SubtractionsSetStrictFlag := by
  refine fun x y s => ⟨⟨_, rfl, ?_⟩, ⟨_, rfl, ?_⟩⟩ <;> rw [← toNat_flagByte, ← toNat_sub_byte] <;>
    exact writesRegAndFlag_writeFlagged s x _ _

theorem toNat_lowBitFlag (a : Byte) : (lowBitFlag a).toNat = a.toNat % 2 := by
  rcases Nat.mod_two_eq_zero_or_one a.toNat with h | h <;>
    simp [lowBitFlag, flagByte, BitVec.getLsbD, Nat.testBit_zero, h]

theorem toNat_highBitFlag (a : Byte) : (highBitFlag a).toNat = a.toNat / 128 := by
  have := a.isLt
  have bit : a.getLsbD 7 = decide (a.toNat / 128 % 2 = 1) := by
    rw [BitVec.getLsbD, Nat.testBit_eq_decide_div_mod_eq]
  rw [highBitFlag, bit, toNat_flagByte]
  split <;> omega

theorem toNat_shiftLeft_one (a : Byte) : (a <<< 1).toNat = a.toNat * 2 % 256 := by
  rw [BitVec.toNat_shiftLeft, Nat.shiftLeft_eq]

/-- Settles O30: flagged writes of the half and the double, with the bit moved out as a number. -/
theorem shiftsMoveTheBitOut : Obligations.ShiftsMoveTheBitOut := by
  refine fun x y s => ⟨⟨_, rfl, ?_⟩, ⟨_, rfl, ?_⟩⟩
  · rw [← toNat_lowBitFlag, ← Nat.shiftRight_one, ← BitVec.toNat_ushiftRight]
    exact writesRegAndFlag_writeFlagged s x _ _
  · rw [← toNat_highBitFlag, ← toNat_shiftLeft_one]
    exact writesRegAndFlag_writeFlagged s x _ _

/-! ### The index register and the memory transfers (42_index_memory.md) -/

/-- Settles O31: the three sums as numbers; a glyph's address does not reach 2^16. -/
theorem indexWrites : Obligations.IndexWrites := by
  refine fun x nnn s => ⟨⟨_, rfl, toNat_zextAddr nnn, rfl, rfl, fun _ => rfl⟩, ⟨_, rfl, ?_, rfl, rfl, fun _ => rfl⟩,
    ⟨_, rfl, ?_, rfl, rfl, fun _ => rfl⟩⟩
  · exact (BitVec.toNat_add _ _).trans (by rw [toNat_zextByte])
  · have := (s.reg x).isLt
    refine (BitVec.toNat_ofNat _ _).trans (Nat.mod_eq_of_lt ?_)
    rw [show Config.font.base = 0 from rfl, show Config.font.stride = 5 from rfl]
    omega

theorem exec_ldBVx_of_in (x : Reg) {s : State} (h : s.dataAddr 2 ≤ 0xFFF) :
    exec (.ldBVx x) s =
      .next { s with mem := s.mem.writeBytes (s.dataAddr 0) (bcdDigits (s.reg x)) }.advance := by
  rw [exec, execLdBVx, withinMemory_in h]

theorem exec_ldMemVx_of_in {x : Reg} {s : State} (h : s.dataAddr x.toNat ≤ 0xFFF) :
    exec (.ldMemVx x) s = .next { s with mem := s.mem.writeBytes (s.dataAddr 0) (s.regsUpTo x) }.advance := by
  rw [exec, execLdMemVx, withinMemory_in h]

theorem exec_ldVxMem_of_in {x : Reg} {s : State} (h : s.dataAddr x.toNat ≤ 0xFFF) :
    exec (.ldVxMem x) s = .next (s.setRegs (s.mem.readBytes (s.dataAddr 0) (x.toNat + 1))).advance := by
  rw [exec, execLdVxMem, withinMemory_in h]

/-- Settles O32: the three bytes read back as the digits. -/
theorem bcdStoreWritesThreeDigits : Obligations.BcdStoreWritesThreeDigits := by
  intro x s h
  have hv := (s.reg x).isLt
  have digit : ∀ k (hk : k < 3), (s.mem.writeBytes (s.dataAddr 0) (bcdDigits (s.reg x))).read (s.dataAddr k) =
      (bcdDigits (s.reg x))[k] := read_writeBytes_inside (bcdDigits (s.reg x)) s.mem (s.dataAddr 0)
  refine ⟨_, exec_ldBVx_of_in x h, ?hundreds, ?tens, ?units,
    fun b hb => read_writeBytes_outside (bcdDigits (s.reg x)) s.mem (s.dataAddr 0) b hb, rfl, rfl⟩
  case hundreds =>
    refine (congrArg BitVec.toNat (digit 0 (by decide))).trans ((BitVec.toNat_ofNat _ _).trans (Nat.mod_eq_of_lt ?_))
    omega
  case tens =>
    refine (congrArg BitVec.toNat (digit 1 (by decide))).trans ((BitVec.toNat_ofNat _ _).trans (Nat.mod_eq_of_lt ?_))
    omega
  case units =>
    refine (congrArg BitVec.toNat (digit 2 (by decide))).trans ((BitVec.toNat_ofNat _ _).trans (Nat.mod_eq_of_lt ?_))
    omega

/-- A dumped register reads back at its address (R124). -/
theorem read_dump (s : State) {x r : Reg} (h : r.toNat ≤ x.toNat) :
    (s.mem.writeBytes (s.dataAddr 0) (s.regsUpTo x)).read (s.dataAddr r.toNat) = s.reg r := by
  have hr : r.toNat < (s.regsUpTo x).length := by rw [length_regsUpTo]; omega
  exact (read_writeBytes_inside (s.regsUpTo x) s.mem (s.dataAddr 0) r.toNat hr).trans (getElem_regsUpTo s x r hr)

/-- Settles O33: the run of bytes stored is the registers in order. -/
theorem registerDumpStoresTheRange : Obligations.RegisterDumpStoresTheRange := by
  refine fun x s h => ⟨_, exec_ldMemVx_of_in h, fun r => read_dump s, fun b hb => ?_, rfl, rfl⟩
  rw [← length_regsUpTo s x] at hb
  exact read_writeBytes_outside (s.regsUpTo x) s.mem (s.dataAddr 0) b hb

/-- A new register file and the advance leave everything else as it was. -/
theorem writes_v_advance {s t : State} {v : Vector Byte 16} (h : t = { s with v := v }.advance) :
    t.pc = s.pc + 2 ∧ t = { s with v := t.v, pc := t.pc } ∧ SameBytes s t := by
  subst h
  exact ⟨rfl, rfl, fun _ => rfl⟩

/-- Settles O34: the registers take the bytes read, in order. -/
theorem registerLoadReadsTheRange : Obligations.RegisterLoadReadsTheRange := by
  refine fun x s h => ⟨_, exec_ldVxMem_of_in h, fun r => ?_, writes_v_advance rfl⟩
  rw [reg_advance, reg_setRegs]
  split
  · have hr : r.toNat < (s.mem.readBytes (s.dataAddr 0) (x.toNat + 1)).length := by rw [length_readBytes]; omega
    rw [List.getD_eq_getElem _ _ hr, getElem_readBytes]
    rfl
  · exact List.getD_eq_default _ _ (by rw [length_readBytes]; omega)

/-- Settles O36: the fetch reads the first two registers of the dump. -/
theorem storeIsSeenByTheNextFetch : Obligations.StoreIsSeenByTheNextFetch := by
  intro x s hx h
  refine ⟨_, exec_ldMemVx_of_in h, fun u hm hp => ?_⟩
  have first : u.mem.read u.pc.toNat = s.reg 0 := by
    rw [hm, hp]
    exact read_dump s (r := 0) (Nat.zero_le _)
  have second : u.mem.read (u.pc.toNat + 1) = s.reg 1 := by
    rw [hm, hp]
    exact read_dump s (r := 1) hx
  rw [fetchReadsHighByteFirst, first, second]

/-! ### Keys, timers and the random source (44_keys_timers_random.md) -/

/-- Settles O35: the table's rows on memory bounds. -/
theorem transferOutsideMemoryFaults : Obligations.TransferOutsideMemoryFaults := fun _ _ _ _ =>
  ⟨fun h => exec_of_tabledFault (if_pos h), fun h => ⟨exec_of_tabledFault (if_pos h), exec_of_tabledFault (if_pos h)⟩,
    fun hn h => exec_of_tabledFault (if_pos ⟨hn, h⟩)⟩

/-- Settles O41: the table's rows on key indices. -/
theorem keyIndexAboveFifteenFaults : Obligations.KeyIndexAboveFifteenFaults := fun _ _ h =>
  ⟨exec_of_tabledFault (if_pos h), exec_of_tabledFault (if_pos h)⟩

theorem withKeyIndex_in {k : Nat} (h : k < 16) (s d : State) : withKeyIndex k s d = d := by
  rw [withKeyIndex, if_neg (by omega)]

theorem keyDown_of_lt {k : Nat} (h : k < 16) (s : State) : s.keyDown k = s.key[k] := by
  simp [State.keyDown, Vector.getD, h]

/-- Settles O40: a skip on the level of a key in range, and one on its opposite. -/
theorem keySkipsFollowTheKey : Obligations.KeySkipsFollowTheKey := by
  refine fun x s h => ⟨⟨s.skipIf s.key[(s.reg x).toNat], ?_, writesPc_skipIf s _⟩,
    ⟨s.skipIf (!s.key[(s.reg x).toNat]), ?_, ?_⟩⟩
  · rw [exec, execSkpVx, withKeyIndex_in h, keyDown_of_lt h]
  · rw [exec, execSknpVx, withKeyIndex_in h, keyDown_of_lt h]
  · simpa only [Bool.not_eq_true', ← Bool.not_eq_true, ite_not] using writesPc_skipIf s (!s.key[(s.reg x).toNat])

/-- Settles O44: a register write, and two writes of a timer. -/
theorem timerTransfers : Obligations.TimerTransfers := fun x s =>
  ⟨⟨_, rfl, writesReg_setReg_advance s x s.dt⟩, ⟨_, rfl, rfl, rfl, rfl, fun _ => rfl⟩,
    ⟨_, rfl, rfl, rfl, rfl, fun _ => rfl⟩⟩

/-- Settles O45: inside the table the reduction of the index does nothing. -/
theorem randomTakesTheNextTableByte : Obligations.RandomTakesTheNextTableByte := by
  intro x kk s h
  have byte : (randomNext Config.rngTable s.rngIndex).1 = Config.rngTable[s.rngIndex] := by
    rw [randomNext, Nat.mod_eq_of_lt h, List.getD_eq_getElem _ _ h]
  refine ⟨_, rfl, ?_, rfl, fun r hr => ?_, rfl, rfl, fun _ => rfl⟩
  · rw [← byte]
    exact reg_setReg_same _ x _
  · exact reg_setReg_ne _ x r _ hr

end Sys2Proof.Machine
end

section
/-! PROOFS. The display (43_display.md R140 to R143): a draw flips the pixels its sprite covers, and the same draw again
flips them back. -/

namespace Sys2Proof.Machine

/-- Settles O37: every row of the new frame buffer is off. -/
theorem clearScreenTurnsEveryPixelOff : Obligations.ClearScreenTurnsEveryPixelOff := by
  refine fun s => ⟨_, rfl, fun r c _ _ => ?_, rfl, rfl, fun _ => rfl⟩
  simp [pixel]

theorem exec_drwVxVyN_of_in {s : State} {n : Nibble} (h : SpriteInMemory s n) (x y : Reg) :
    exec (.drwVxVyN x y n) s = .next (drawn x y n s) := by
  rw [exec, execDrwVxVyN]
  split
  · rfl
  · rw [withinMemory_in (h.resolve_left ‹_›)]

/-! ### The points of a draw (R141) -/

section
variable (s : State) (x y : Reg) (n : Nibble)

/-- The points that the sprite of a draw sets, on the screen. -/
def drawPoints : List (Nat × Nat) :=
  spritePoints (s.reg x).toNat (s.reg y).toNat (s.mem.readBytes (s.dataAddr 0) n.toNat)

theorem mem_drawPoints (r c : Nat) : (r, c) ∈ drawPoints s x y n ↔ SpriteCovers s x y n r c := by
  rw [drawPoints, mem_spritePoints, SpriteCovers]
  simp only [length_readBytes, getElem_readBytes, spriteBit, Prod.mk.injEq, exists_prop]

theorem SpriteCovers.on_screen {s : State} {x y : Reg} {n : Nibble} {r c : Nat} (h : SpriteCovers s x y n r c) :
    r < 32 ∧ c < 64 :=
  spritePoints_on_screen _ _ _ _ ((mem_drawPoints s x y n r c).mpr h)

theorem length_drawn_rows : (s.mem.readBytes (s.dataAddr 0) n.toNat).length ≤ 32 := by
  have := n.isLt
  rw [length_readBytes]
  omega

/-! ### What a draw writes -/

/-- A pixel after a draw (R141, R142). -/
theorem pixel_drawn {r c : Nat} (hr : r < 32) (hc : c < 64) :
    pixel (drawn x y n s).fb r c = (pixel s.fb r c ^^ decide ((r, c) ∈ drawPoints s x y n)) :=
  pixel_drawSprite _ _ _ _ (length_drawn_rows s n) r c hr hc

theorem pixel_drawn_covered {r c : Nat} (h : SpriteCovers s x y n r c) :
    pixel (drawn x y n s).fb r c = !pixel s.fb r c := by
  rw [pixel_drawn s x y n h.on_screen.1 h.on_screen.2, decide_eq_true ((mem_drawPoints s x y n r c).mpr h), Bool.xor_true]

theorem pixel_drawn_uncovered {r c : Nat} (hr : r < 32) (hc : c < 64) (h : ¬ SpriteCovers s x y n r c) :
    pixel (drawn x y n s).fb r c = pixel s.fb r c := by
  rw [pixel_drawn s x y n hr hc, decide_eq_false fun e => h ((mem_drawPoints s x y n r c).mp e), Bool.xor_false]

/-- The flag of a draw is 1 exactly when a covered pixel was on (R141, R142). -/
theorem reg_vF_drawn_eq_one_iff :
    (drawn x y n s).reg 15 = 1 ↔ ∃ r c, SpriteCovers s x y n r c ∧ pixel s.fb r c = true := by
  have flag : (drawn x y n s).reg 15 = flagByte _ := reg_setReg_same _ vF _
  have one : ∀ c, flagByte c = 1 ↔ c = true := by decide
  rw [flag, one, coll_drawSprite _ _ _ _ (length_drawn_rows s n)]
  simp only [Bool.false_eq_true, false_or, Prod.exists]
  exact exists₂_congr fun r c => and_congr_left' (mem_drawPoints s x y n r c)

theorem reg_vF_drawn_eq_zero (h : ∀ r c, SpriteCovers s x y n r c → pixel s.fb r c = false) :
    (drawn x y n s).reg 15 = 0 := by
  have flag : (drawn x y n s).reg 15 = flagByte _ := reg_setReg_same _ vF _
  have zero : ∀ c, flagByte c ≠ 1 → flagByte c = 0 := by decide
  rw [flag]
  refine zero _ fun e => ?_
  obtain ⟨r, c, hcov, hon⟩ := (reg_vF_drawn_eq_one_iff s x y n).mp (flag.trans e)
  rw [h r c hcov] at hon
  cases hon

theorem reg_drawn_ne {q : Reg} (h : q ≠ 15) : (drawn x y n s).reg q = s.reg q := reg_setReg_ne _ vF q _ h

end

/-- Settles O38: each pixel by whether the sprite covers it, and the flag by whether a covered one was on. -/
theorem drawFlipsTheCoveredPixels : Obligations.DrawFlipsTheCoveredPixels := fun x y n s h =>
  ⟨_, exec_drwVxVyN_of_in h x y,
    fun _ _ hr hc => ⟨pixel_drawn_covered s x y n, pixel_drawn_uncovered s x y n hr hc⟩,
    (reg_vF_drawn_eq_one_iff s x y n).mpr, reg_vF_drawn_eq_zero s x y n, fun _ => reg_drawn_ne s x y n,
    rfl, rfl, rfl, fun _ => rfl⟩

/-! ### The same draw twice (R143) -/

/-- A draw writes no coordinate register but `vF`, and neither `I` nor memory, so the same draw covers the same
pixels. -/
theorem spriteCovers_drawn {x y : Reg} (hx : x ≠ 15) (hy : y ≠ 15) (n : Nibble) (s : State) (r c : Nat) :
    SpriteCovers (drawn x y n s) x y n r c ↔ SpriteCovers s x y n r c := by
  rw [SpriteCovers, reg_drawn_ne s x y n hx, reg_drawn_ne s x y n hy]
  rfl

/-- Settles O39: a covered pixel is flipped twice, and is on between the draws exactly when it was off before. -/
theorem drawTwiceRestoresTheScreen : Obligations.DrawTwiceRestoresTheScreen := by
  intro x y n s hx hy h
  have covers := spriteCovers_drawn hx hy n s
  refine ⟨drawn x y n s, drawn x y n (drawn x y n s), exec_drwVxVyN_of_in h x y,
    exec_drwVxVyN_of_in (s := drawn x y n s) h x y, frameBuffer_ext fun r c hr hc => ?screen, ?flag⟩
  case screen =>
    by_cases hcov : SpriteCovers s x y n r c
    · rw [pixel_drawn_covered _ x y n ((covers r c).mpr hcov), pixel_drawn_covered s x y n hcov, Bool.not_not]
    · rw [pixel_drawn_uncovered _ x y n hr hc fun e => hcov ((covers r c).mp e), pixel_drawn_uncovered s x y n hr hc hcov]
  case flag =>
    rw [reg_vF_drawn_eq_one_iff]
    refine exists₂_congr fun r c => ?_
    rw [covers]
    refine and_congr_right fun hcov => ?_
    rw [pixel_drawn_covered s x y n hcov, Bool.not_eq_true']

end Sys2Proof.Machine
end
